-- ==== Sys2Proof/Word.lean ====
section
/-! DEFINITION. The words of the PATP core (00_scope.md R6, R7). Every width is fixed by the spec. -/

namespace Sys2Proof

/-- A memory byte, the accumulator, an instruction: 8 bits (R6 `XLEN`, `ILEN`). -/
abbrev Byte := BitVec 8

/-- An address, the operand field, the program counter: 5 bits (R6 `ALEN`, R13). -/
abbrev Addr := BitVec 5

/-- The opcode field: 3 bits (R6 `OPLEN`). -/
abbrev Opcode := BitVec 3

end Sys2Proof
end

