-- ==== Sys2Proof/Syntax.lean ====
section
/-! DEFINITION. The instructions, one constructor per row of spec/opcode_table.json (30_encoding.md R53, R54). -/

namespace Sys2Proof

/-- A decoded instruction. The operand is the 5-bit field `n` of the instruction byte (R52). INC and DEC carry
none: the decoder ignores the field (R56) and the encoder writes zero (R57). -/
inductive Instr where
  /-- CLEAR: opcode 0 with operand 0 (R101). -/
  | clear
  /-- STOP: opcode 0 with a non-zero operand, kept because the byte keeps it (R140). -/
  | stop (n : Addr)
  /-- INC: opcode 1 (R102). -/
  | inc
  /-- ADD n: opcode 2, `n` an unsigned immediate (R103). -/
  | add (n : Addr)
  /-- DEC: opcode 3 (R104). -/
  | dec
  /-- JMP n: opcode 4, `n` an absolute code address (R120). -/
  | jmp (n : Addr)
  /-- BNZ n: opcode 5, `n` an absolute code address (R121). -/
  | bnz (n : Addr)
  /-- LOAD n: opcode 6, `n` an absolute data address (R130). -/
  | load (n : Addr)
  /-- STORE n: opcode 7, `n` an absolute data address (R131). -/
  | store (n : Addr)
  deriving DecidableEq, Repr

end Sys2Proof
end

