-- ==== Sys2Proof/WellFormed.lean ====
section
/-! DEFINITION. Which terms of Instr stand for an instruction byte. -/

namespace Sys2Proof

/-- The one check the operand types leave: a STOP has a non-zero operand, since opcode 0 with operand 0 is
CLEAR (30_encoding.md R54, 44_halt.md R140). Every other operand field is a legal 5-bit value (R52, R55). -/
def Instr.wf : Instr → Bool
  | .clear => true
  | .stop n => n != 0
  | .inc => true
  | .add _ => true
  | .dec => true
  | .jmp _ => true
  | .bnz _ => true
  | .load _ => true
  | .store _ => true

end Sys2Proof
end

