-- ==== Sys2Proof/Decode.lean ====
section
/-! DEFINITION. The decoder, total on every byte (30_encoding.md R55), the encoder, and the opcode table.
No byte is illegal or reserved, so the decoder rejects nothing and has no invalid result (R55). -/

namespace Sys2Proof

/-- `op = b[7:5]` (R51). -/
def opcodeOf (b : Byte) : Opcode := b.extractLsb' 5 3

/-- `n = b[4:0]` (R51). -/
def operandOf (b : Byte) : Addr := b.extractLsb' 0 5

/-- `{op, n}`, that is `op * 32 + n` (R51). -/
def joinByte (op : Opcode) (n : Addr) : Byte := op ++ n

/-- The opcode map (R53), opcode 0 split on all five operand bits (R54). The eight opcodes are all used. -/
def decode (b : Byte) : Instr :=
  let n := operandOf b
  match opcodeOf b with
  | 0b000#3 => if n = 0 then .clear else .stop n
  | 0b001#3 => .inc
  | 0b010#3 => .add n
  | 0b011#3 => .dec
  | 0b100#3 => .jmp n
  | 0b101#3 => .bnz n
  | 0b110#3 => .load n
  | _ => .store n

/-- The byte of an instruction (R53); the operand field of INC and DEC is zero-filled (R57, R58). -/
def encode : Instr → Byte
  | .clear => joinByte 0b000 0
  | .stop n => joinByte 0b000 n
  | .inc => joinByte 0b001 0
  | .add n => joinByte 0b010 n
  | .dec => joinByte 0b011 0
  | .jmp n => joinByte 0b100 n
  | .bnz n => joinByte 0b101 n
  | .load n => joinByte 0b110 n
  | .store n => joinByte 0b111 n

/-- The spec's primary mnemonic (D25), as spec/opcode_table.json spells it. -/
def Instr.mnemonic : Instr → String
  | .clear => "CLEAR"
  | .stop _ => "STOP"
  | .inc => "INC"
  | .add _ => "ADD"
  | .dec => "DEC"
  | .jmp _ => "JMP"
  | .bnz _ => "BNZ"
  | .load _ => "LOAD"
  | .store _ => "STORE"

/-- One row of spec/opcode_table.json (D21). -/
structure OpcodeRow where
  /-- the row's mnemonic -/
  mnemonic : String
  /-- the bits the row fixes -/
  mask : Byte
  /-- their values -/
  pattern : Byte
  /-- the row's constraint `n != 0` is present (STOP) -/
  needsOperand : Bool
  /-- the byte the encoder emits for the mnemonic, with `n = 0` where it has an operand -/
  canonical : Byte
  deriving DecidableEq, Repr

/-- The opcode table, in the file's order. -/
def opcodeTable : List OpcodeRow :=
  [ ⟨"CLEAR", 0xFF, 0x00, false, 0x00⟩,
    ⟨"STOP", 0xE0, 0x00, true, 0x01⟩,
    ⟨"INC", 0xE0, 0x20, false, 0x20⟩,
    ⟨"ADD", 0xE0, 0x40, false, 0x40⟩,
    ⟨"DEC", 0xE0, 0x60, false, 0x60⟩,
    ⟨"JMP", 0xE0, 0x80, false, 0x80⟩,
    ⟨"BNZ", 0xE0, 0xA0, false, 0xA0⟩,
    ⟨"LOAD", 0xE0, 0xC0, false, 0xC0⟩,
    ⟨"STORE", 0xE0, 0xE0, false, 0xE0⟩ ]

/-- A row matches a byte when the masked bits agree and its constraint, if present, holds (D21). -/
def OpcodeRow.accepts (r : OpcodeRow) (b : Byte) : Bool :=
  b &&& r.mask == r.pattern && (!r.needsOperand || operandOf b != 0)

/-- The byte a table word of `nbits` bits stands for: one byte, every bit above `nbits` zero. -/
def tableByte (nbits w : Nat) : Byte := BitVec.ofNat 8 (w % 2 ^ nbits)

/-- The decoder on a table word. No instruction is longer than one byte (R50, R61). -/
def decodeTableWord (nbits w : Nat) : Option Instr :=
  if nbits ≤ 8 then some (decode (tableByte nbits w)) else none

end Sys2Proof
end

