-- ==== Sys2Proof/Machine/Flags.lean ====
section
/-! DEFINITION. The flag computation: the machine's one condition is "result equals zero"
(41_accumulator_arithmetic.md R100, R106). There is no carry, overflow, sign or parity flag (10_state.md R14). -/

namespace Sys2Proof.Machine

/-- The zero indication `Z = (R == 0)` of the arithmetic unit (R100). -/
def zeroFlag (r : Byte) : Bool := r == 0

/-- The condition of BNZ: taken when the FLAG is false, whatever the accumulator holds (R121, C4). -/
def branchTaken (zf : Bool) : Bool := !zf

end Sys2Proof.Machine
end

