-- ==== Sys2Proof/Machine/Operands.lean ====
section
/-! DEFINITION. The operand forms (30_encoding.md R52): one contiguous unsigned 5-bit field `n`, used as a
selector, an immediate, a code address or a data address, or ignored. There is no other operand form: no register
field, no addressing mode but direct absolute (43_load_store.md R132). -/

namespace Sys2Proof.Machine

/-- `zext_8(v)`: three zero bits on top, the same number (00_scope.md R8). -/
def zext8 (v : Addr) : Byte := v.setWidth 8

/-- ADD's addend: the operand field zero-extended, never sign-extended (R52, D11). -/
def immediate (n : Addr) : Byte := zext8 n

/-- The effective address of LOAD and STORE: the operand field itself, `EA = n` (R132). -/
def dataAddress (n : Addr) : Addr := n

/-- The target of JMP and BNZ: the operand field itself, absolute (42_control_transfer.md R122). -/
def codeTarget (n : Addr) : Addr := n

/-- The selector of opcode 0: STOP when any of the five bits is set, CLEAR otherwise (R54). -/
def selectsStop (n : Addr) : Bool := n != 0

end Sys2Proof.Machine
end

