-- ==== Sys2Proof/Config.lean ====
section
/-! DEFINITION. What is fixed for the machine, and the one value the spec leaves open.
No size is a parameter (00_scope.md R6). The open value concerns the assembler's error reports only; the machine
has none (93_implementation_defined.md section 1). -/

namespace Sys2Proof.Config

/-- Number of memory bytes, `MEMSIZE` (R6); also the most bytes a load accepts (R174). -/
def memSize : Nat := 32

/-- What a memory byte reads as when nothing has written it: reset zeroes every byte (R21, R171). -/
def memReset : Byte := 0x00

/-- The assembler rejects a program of this many instructions or more (R69). It is not the loader's limit. -/
def asmLimit : Nat := 32

/-- The program counter after reset: execution begins at address 0 (R21, R172). -/
def entryPoint : Addr := 0

/-- FREE VALUE (log entry 5). The line number an assembler error of the kind with number `kind` carries, if it
carries one, given the physical line (from 0) and the index among instruction lines (from 0) of the offending
line. "The spec does not fix its base or what it counts" (U14, N20). -/
opaque errorLine (kind physical index : Nat) : Option Nat

end Sys2Proof.Config
end

