-- ==== Sys2Proof/Machine/State.lean ====
section
/-! DEFINITION. The state of the machine (10_state.md R10, R18), its reset value (R21), and the ways a step can
stop. -/

namespace Sys2Proof.Machine

/-- The 32 bytes of memory (R23), as the list of the bytes that differ from the reset value, addresses rising. -/
abbrev Memory := List Host.Cell

/-- The canonical form above address `lo`: every listed address is at least `lo`, inside the memory and below the
next, and no listed byte is the one an unlisted address reads as. -/
def Memory.wfFrom : Nat → Memory → Bool
  | _, [] => true
  | lo, (a, v) :: rest =>
    decide (lo ≤ a) && decide (a < Config.memSize) && decide (v ≠ Config.memReset) && Memory.wfFrom (a + 1) rest

/-- The canonical form: equal memories are equal lists. -/
def Memory.wf (m : Memory) : Bool := Memory.wfFrom 0 m

/-- The whole state of the machine: the five components of R10 and the instruction register of R18. -/
structure State where
  /-- the 32-byte memory (R23) -/
  mem : Memory
  /-- the accumulator, `x[0]` (R11) -/
  acc : Byte
  /-- the zero flag (R14) -/
  zf : Bool
  /-- the program counter, the address of the next byte to fetch (R13) -/
  pc : Addr
  /-- the halted latch (R17) -/
  halted : Bool
  /-- the instruction register `IR`: the byte of the last fetch phase (R18) -/
  ir : Byte
  deriving DecidableEq, Repr

/-- The exceptions of the core. THERE ARE NONE: "the set of exception causes is empty" (60_exceptions.md R150,
R151), so no step can fault. Nothing raises one; that is exact, neither safe nor unsafe. -/
inductive Fault where
  deriving DecidableEq, Repr

/-- Why a step is not taken. -/
inductive Refusal where
  /-- Raised by `exec` for an instruction that has no meaning yet; no instruction of this model is one. Safe. -/
  | notModelled (mnemonic : String)
  /-- Raised by `step` in a state whose halted latch is set: a halted machine takes no step and only reset leaves
  the halted state (44_halt.md R142, U9 "refuse"). No instruction raises it. Safe. -/
  | halted
  deriving DecidableEq, Repr

/-- The machine right after reset (R21, R170): memory zero, accumulator 0, zero flag TRUE, pc 0, not halted.
The instruction register's value is DESIGN CHOICE (log entry 1): the spec gives none that can be observed. -/
def State.reset : State where
  mem := []
  acc := 0
  zf := true
  pc := Config.entryPoint
  halted := false
  ir := 0

end Sys2Proof.Machine
end

