-- ==== Sys2Proof/Machine/Ops.lean ====
section
/-! DEFINITION. The named operations over memory and registers: the pseudocode primitives of 00_scope.md R8.
TAKING AN EXCEPTION AND RETURNING FROM ONE have no operation here, because the machine has neither: no exception
(60_exceptions.md R150), no trap entry (R154), no trap return (R155), no interrupt (R152). -/

namespace Sys2Proof.Machine

/-- The byte at an address of the memory: the last one written, or the reset value (20_memory.md R31). -/
def Memory.read : Memory → Nat → Byte
  | [], _ => Config.memReset
  | (k, w) :: rest, a => if k = a then w else Memory.read rest a

/-- Lists a byte at the head, unless it is what an unlisted address reads as. -/
def Memory.listCell (a : Nat) (v : Byte) (m : Memory) : Memory :=
  if v = Config.memReset then m else (a, v) :: m

/-- Sets the byte at an address and no other (R32), keeping the canonical form. -/
def Memory.write : Memory → Nat → Byte → Memory
  | [], a, v => Memory.listCell a v []
  | (k, w) :: rest, a, v =>
    if a < k then Memory.listCell a v ((k, w) :: rest)
    else if a = k then Memory.listCell a v rest
    else (k, w) :: Memory.write rest a v

/-- `MemRead(addr, 1)`: never fails, changes nothing (R31). The address is 5 bits, so it exists (R37). -/
def memRead (s : State) (a : Addr) : Byte := Memory.read s.mem a.toNat

/-- `MemWrite(addr, 1, v)`: never fails, takes effect at once (R32). -/
def memWrite (s : State) (a : Addr) (v : Byte) : State := { s with mem := Memory.write s.mem a.toNat v }

/-- `x[0] <- v` (R8). -/
def setAcc (s : State) (v : Byte) : State := { s with acc := v }

/-- `zf <- b` (R8). -/
def setZf (s : State) (b : Bool) : State := { s with zf := b }

/-- `pc <- target` (R8): the load command of the program counter (40_fetch_execute.md R83). -/
def setPc (s : State) (target : Addr) : State := { s with pc := target }

/-- `halted <- b` (R8). -/
def setHalted (s : State) (b : Bool) : State := { s with halted := b }

/-- `IR <- v`, by the fetch phase alone (R18). -/
def setIr (s : State) (v : Byte) : State := { s with ir := v }

/-- The increment command of the program counter, modulo 32: 31 becomes 0 (R81, R83). -/
def nextPc (pc : Addr) : Addr := pc + 1

/-- What the fetch phase does with the byte it is given: `IR` takes it and `pc` is incremented (R81). -/
def latchFetched (v : Byte) (s : State) : State := setPc (setIr s v) (nextPc s.pc)

/-- The fetch phase (R81): `IR <- MemRead(pc, 1)`, then `pc <- (pc + 1) mod 32`. It cannot fail. -/
def fetch (s : State) : State := latchFetched (memRead s s.pc) s

end Sys2Proof.Machine
end

