-- ==== Sys2Proof/Machine/Alu.lean ====
section
/-! DEFINITION. The arithmetic unit (41_accumulator_arithmetic.md R100) and the write of its two outputs (R105). -/

namespace Sys2Proof.Machine

/-- The operation select `alu_op` (R100). -/
inductive AluOp where
  | zero
  | inc
  | add
  | dec
  deriving DecidableEq, Repr

/-- The result `R` from the accumulator `A` and the extended operand `B`, modulo 256 (R100, R106). -/
def alu (op : AluOp) (a b : Byte) : Byte :=
  match op with
  | .zero => 0
  | .inc => a + 1
  | .add => a + b
  | .dec => a + 255

/-- `x[0] <- R` and `zf <- Z` in the same step (R105): what CLEAR, INC, ADD and DEC do, and all they do (R108). -/
def commitAlu (op : AluOp) (b : Byte) (s : State) : State :=
  let r := alu op s.acc b
  setZf (setAcc s r) (zeroFlag r)

end Sys2Proof.Machine
end

