-- ==== Sys2Proof/Machine/Accumulator.lean ====
section
/-! DEFINITION. CLEAR, INC, ADD and DEC (41_accumulator_arithmetic.md). -/

namespace Sys2Proof.Machine

/-- CLEAR (R101): `x[0] <- 0; zf <- true`. It does not halt (C7). -/
def execClear (s : State) : Host.Outcome State Fault Refusal := .next (commitAlu .zero 0 s)

/-- INC (R102): `r = (x[0] + 1) mod 256; x[0] <- r; zf <- (r == 0)`. -/
def execInc (s : State) : Host.Outcome State Fault Refusal := .next (commitAlu .inc 0 s)

/-- ADD n (R103): `r = (x[0] + zext_8(n)) mod 256; x[0] <- r; zf <- (r == 0)`. -/
def execAdd (n : Addr) (s : State) : Host.Outcome State Fault Refusal := .next (commitAlu .add (immediate n) s)

/-- DEC (R104): `r = (x[0] + 255) mod 256; x[0] <- r; zf <- (r == 0)`. -/
def execDec (s : State) : Host.Outcome State Fault Refusal := .next (commitAlu .dec 0 s)

end Sys2Proof.Machine
end

