-- ==== Sys2Proof/Machine/Control.lean ====
section
/-! DEFINITION. JMP and BNZ (42_control_transfer.md). The fetch phase has already incremented `pc`; a target
replaces that value and is not added to it (40_fetch_execute.md R83). -/

namespace Sys2Proof.Machine

/-- JMP n (R120): `pc <- n`. -/
def execJmp (n : Addr) (s : State) : Host.Outcome State Fault Refusal := .next (setPc s (codeTarget n))

/-- BNZ n (R121): `if zf == false then pc <- n`. -/
def execBnz (n : Addr) (s : State) : Host.Outcome State Fault Refusal :=
  .next (if branchTaken s.zf then setPc s (codeTarget n) else s)

end Sys2Proof.Machine
end

