-- ==== Sys2Proof/Machine/Halt.lean ====
section
/-! DEFINITION. STOP (44_halt.md). -/

namespace Sys2Proof.Machine

/-- STOP (R140): `halted <- true`, whatever the operand; nothing else changes. Halting is a next state: the normal,
successful end of a run. -/
def execStop (_n : Addr) (s : State) : Host.Outcome State Fault Refusal := .next (setHalted s true)

end Sys2Proof.Machine
end

