-- ==== Sys2Proof/Machine/LoadStore.lean ====
section
/-! DEFINITION. LOAD and STORE (43_load_store.md): the only data accesses (R134), one byte each (R33). -/

namespace Sys2Proof.Machine

/-- LOAD n (R130): `x[0] <- MemRead(n, 1)`. The zero flag is NOT written (10_state.md R14, D4). -/
def execLoad (n : Addr) (s : State) : Host.Outcome State Fault Refusal :=
  .next (setAcc s (memRead s (dataAddress n)))

/-- STORE n (R131): `MemWrite(n, 1, x[0])`. No address is protected (20_memory.md R38). -/
def execStore (n : Addr) (s : State) : Host.Outcome State Fault Refusal :=
  .next (memWrite s (dataAddress n) s.acc)

end Sys2Proof.Machine
end

