-- ==== Sys2Proof/Machine/Dispatch.lean ====
section
/-! DEFINITION. The execute phase (40_fetch_execute.md R82, R90): dispatch of the decoded instruction. -/

namespace Sys2Proof.Machine

/-- The execute phase of one instruction, in a state whose `pc` the fetch phase has already advanced (R90). -/
def exec (i : Instr) (s : State) : Host.Outcome State Fault Refusal :=
  match i with
  | .clear => Sys2Proof.Machine.execClear s
  | .stop n => Sys2Proof.Machine.execStop n s
  | .inc => Sys2Proof.Machine.execInc s
  | .add n => Sys2Proof.Machine.execAdd n s
  | .dec => Sys2Proof.Machine.execDec s
  | .jmp n => Sys2Proof.Machine.execJmp n s
  | .bnz n => Sys2Proof.Machine.execBnz n s
  | .load n => Sys2Proof.Machine.execLoad n s
  | .store n => Sys2Proof.Machine.execStore n s

end Sys2Proof.Machine
end

