-- ==== Sys2Proof/Machine/Step.lean ====
section
/-! DEFINITION. One step (40_fetch_execute.md R80, R88): the fetch phase, then the execute phase of the byte just
fetched. Every step fetches from memory at that moment; nothing is pre-decoded or cached (R92, 20_memory.md R40). -/

namespace Sys2Proof.Machine

/-- One step, taken only when `halted` is false (R80); a halted machine takes none (44_halt.md R142). -/
def step (s : State) : Host.Outcome State Fault Refusal :=
  if s.halted then .refused .halted else exec (decode (fetch s).ir) (fetch s)

/-- The state with a table word's byte stored where the next step fetches: at `pc`. Nothing else changes; in
particular a halted machine stays halted. -/
def State.withFetchWord (s : State) (nbits w : Nat) : State := memWrite s s.pc (tableByte nbits w)

end Sys2Proof.Machine
end

