-- ==== Sys2Proof/Machine/SourceInstr.lean ====
section
/-! DEFINITION. The source's own instruction type, a tagged variant with an 8-bit operand (00_scope.md R9), and its
`encode` and `decode` (30_encoding.md R57). Toolchain, not hardware: the hardware only decodes (R57). -/

namespace Sys2Proof.Machine

/-- The source's `Instruction` (R9): six variants carry an operand, two do not (C2). The operand is 8 bits wide and
must be below 32 (R57). -/
inductive SourceInstr where
  | clear (n : Byte)
  | inc
  | add (n : Byte)
  | dec
  | jump (n : Byte)
  | branchIfNotZero (n : Byte)
  | load (n : Byte)
  | store (n : Byte)
  deriving DecidableEq, Repr

/-- The encoder's one failure (R57, R72). -/
inductive EncodingError where
  | operandOutOfRange
  deriving DecidableEq, Repr

/-- The operand of a variant that carries one. -/
def SourceInstr.operand : SourceInstr → Option Byte
  | .clear n => some n
  | .inc => none
  | .add n => some n
  | .dec => none
  | .jump n => some n
  | .branchIfNotZero n => some n
  | .load n => some n
  | .store n => some n

/-- The opcode of a variant, in the order of R53. -/
def SourceInstr.opcode : SourceInstr → Opcode
  | .clear _ => 0b000
  | .inc => 0b001
  | .add _ => 0b010
  | .dec => 0b011
  | .jump _ => 0b100
  | .branchIfNotZero _ => 0b101
  | .load _ => 0b110
  | .store _ => 0b111

/-- The operand, if there is one, fits in 5 bits (R57). -/
def SourceInstr.inRange (i : SourceInstr) : Bool :=
  match i.operand with
  | none => true
  | some n => decide (n.toNat < 32)

/-- `encode` (R57): never a silent truncation; zero fill where there is no operand. -/
def encodeSource (i : SourceInstr) : Except EncodingError Byte :=
  match i.operand with
  | none => .ok (joinByte i.opcode 0)
  | some n => if n.toNat < 32 then .ok (joinByte i.opcode (n.setWidth 5)) else .error .operandOutOfRange

/-- `decode` (R57), total on every byte. -/
def decodeSource (b : Byte) : SourceInstr :=
  let n : Byte := (operandOf b).setWidth 8
  match opcodeOf b with
  | 0b000#3 => .clear n
  | 0b001#3 => .inc
  | 0b010#3 => .add n
  | 0b011#3 => .dec
  | 0b100#3 => .jump n
  | 0b101#3 => .branchIfNotZero n
  | 0b110#3 => .load n
  | _ => .store n

/-- The spec's instruction a source instruction stands for (R9): `Clear(0)` is CLEAR, `Clear(n)` with `n` not 0 is
STOP. None where the operand is out of range. -/
def SourceInstr.toInstr (i : SourceInstr) : Option Instr :=
  if i.inRange then
    some
      (match i with
      | .clear n => if n = 0 then .clear else .stop (n.setWidth 5)
      | .inc => .inc
      | .add n => .add (n.setWidth 5)
      | .dec => .dec
      | .jump n => .jmp (n.setWidth 5)
      | .branchIfNotZero n => .bnz (n.setWidth 5)
      | .load n => .load (n.setWidth 5)
      | .store n => .store (n.setWidth 5))
  else none

/-- `encode(Vec<Instruction>)` (R77): byte by byte, stopping at the first failure. -/
def encodeProgram : List SourceInstr → Except EncodingError (List Byte)
  | [] => .ok []
  | i :: rest =>
    match encodeSource i with
    | .error e => .error e
    | .ok b =>
      match encodeProgram rest with
      | .error e => .error e
      | .ok bs => .ok (b :: bs)

end Sys2Proof.Machine
end

