-- ==== Sys2Proof/Machine/Assembler.lean ====
section
/-! DEFINITION. The assembler (30_encoding.md R62 to R78): program text to the source's instructions, in two passes.
Toolchain, not hardware; no rule of the machine depends on it (00_scope.md R4). -/

namespace Sys2Proof.Machine

/-- A field of a line: its characters. -/
abbrev Token := List Char

/-- The assembler's errors (R72, R74). -/
inductive AsmError where
  /-- scan: 32 or more instruction-producing lines (R69) -/
  | programTooLong
  /-- scan: something is left on the line after the operand (R63, R72) -/
  | trailingTokens
  /-- scan (that it is found there is log entry 8): a second declaration of a label (R74, D17) -/
  | duplicateLabel
  /-- scan where declared, resolve where used as an operand (the stages are log entry 8): a label spelled like a
  mnemonic (R74, D18) -/
  | reservedLabel
  /-- resolve: the operand is a label that no line declares (R71) -/
  | unknownSymbol
  /-- resolve: the literal or resolved operand is 32 or more (R71) -/
  | operandOverflow
  /-- resolve: the word in the mnemonic position is no mnemonic, or there is none (R66, R71, R76) -/
  | invalidOpcode
  /-- resolve: a required operand is missing or unparsable (R71, R72) -/
  | missingOperand
  /-- resolve: an operand where none may stand (R71, D19) -/
  | unexpectedOperand
  deriving DecidableEq, Repr

/-- The number the open value `Config.errorLine` knows an error kind by. -/
def AsmError.kind : AsmError → Nat
  | .programTooLong => 0
  | .trailingTokens => 1
  | .duplicateLabel => 2
  | .reservedLabel => 3
  | .unknownSymbol => 4
  | .operandOverflow => 5
  | .invalidOpcode => 6
  | .missingOperand => 7
  | .unexpectedOperand => 8

/-- A failed assembly: the typed error with "the offending line number where applicable" (R73). -/
structure AsmFailure where
  error : AsmError
  line : Option Nat
  deriving DecidableEq, Repr

/-- The failure for an error on a line. What number it carries is open (U14, N20): the free value of log entry 5. -/
def failAt (e : AsmError) (physical index : Nat) : AsmFailure := ⟨e, Config.errorLine e.kind physical index⟩

/-- A line's operand field as the scan pass records it (R67, R68). -/
inductive Operand where
  /-- a decimal literal, 0 to 255 before the range check -/
  | literal (v : Nat)
  /-- a label reference -/
  | label (name : Token)
  /-- neither (R72, R76) -/
  | unparsable
  deriving DecidableEq, Repr

/-- What the scan pass records for one instruction-producing line (R68). -/
structure RawLine where
  /-- the line's position in the text, from 0 -/
  physical : Nat
  /-- its position among instruction-producing lines, from 0: its load address (R70, D16) -/
  index : Nat
  label : Option Token
  opcode : Token
  operand : Option Operand
  deriving DecidableEq, Repr

/-- The symbol table: label names and the line numbers they were declared at (R68). -/
abbrev SymbolTable := List (Token × Nat)

/-- The nine things a mnemonic can ask for (R65). -/
inductive MnemonicForm where
  | clear
  | stop
  | inc
  | dec
  | add
  | load
  | store
  | jump
  | branch
  deriving DecidableEq, Repr

/-- The mnemonic table with its aliases (R65, R66), upper case (R75). -/
def mnemonicTable : List (String × MnemonicForm) :=
  [ ("CLEAR", .clear), ("STOP", .stop), ("INC", .inc), ("DEC", .dec), ("ADD", .add), ("LOAD", .load),
    ("STORE", .store), ("JMP", .jump), ("JUMP", .jump), ("BNZ", .branch), ("BUZ", .branch), ("BZC", .branch),
    ("BNE", .branch) ]

/-- The table's entry for a word, if it is a mnemonic; case-sensitive (R75). -/
def lookupMnemonic (t : Token) : List (String × MnemonicForm) → Option MnemonicForm
  | [] => none
  | (name, form) :: rest => if name.toList = t then some form else lookupMnemonic t rest

/-- The mnemonic a word is (R65). -/
def mnemonicOf (t : Token) : Option MnemonicForm := lookupMnemonic t mnemonicTable

/-- A word of the mnemonic table, which no label may be (R74). -/
def isMnemonic (t : Token) : Bool := (mnemonicOf t).isSome

/-- The line number a label was declared at. -/
def lookupSymbol (name : Token) : SymbolTable → Option Nat
  | [] => none
  | (l, v) :: rest => if l = name then some v else lookupSymbol name rest

/-- The lines of a text: line feeds separate them (R62). -/
def splitLines : List Char → List (List Char)
  | [] => [[]]
  | c :: rest =>
    if c = '\n' then [] :: splitLines rest
    else
      match splitLines rest with
      | [] => [[c]]
      | l :: ls => (c :: l) :: ls

/-- The field being collected, as a list of at most one field. -/
def flushField (cur : Token) : List Token := if cur = [] then [] else [cur]

/-- The fields of a line's text, separated by runs of whitespace (R62), with `cur` collected so far. -/
def fieldsFrom (cur : Token) : List Char → List Token
  | [] => flushField cur
  | c :: rest => if c.isWhitespace then flushField cur ++ fieldsFrom [] rest else fieldsFrom (cur ++ [c]) rest

/-- The fields of a line before its comment: a semicolon begins one wherever it stands (R62, R76). -/
def lineFields (line : List Char) : List Token := fieldsFrom [] (line.takeWhile (· != ';'))

/-- The value of a string of decimal digits, most significant first. -/
def decimalFrom (acc : Nat) : List Char → Nat
  | [] => acc
  | c :: rest => decimalFrom (acc * 10 + (c.toNat - '0'.toNat)) rest

/-- ASCII letters and digits, at least one (R76). -/
def isAlnumToken (t : Token) : Bool := t != [] && t.all Char.isAlphanum

/-- Digits only (R76). -/
def isDigitToken (t : Token) : Bool := t.all Char.isDigit

/-- A label's name: letters and digits, not all digits (R76). -/
def isLabelName (t : Token) : Bool := isAlnumToken t && !isDigitToken t

/-- The name a field declares, if it is a label name followed at once by a colon (R76). -/
def declaredLabel (t : Token) : Option Token :=
  if t.getLast? = some ':' && isLabelName t.dropLast then some t.dropLast else none

/-- An operand field (R67, R76): an all-digit field below 256 is a literal, any other alphanumeric one a label
reference. -/
def parseOperand (t : Token) : Operand :=
  if isAlnumToken t then
    if isDigitToken t then
      if decimalFrom 0 t < 256 then .literal (decimalFrom 0 t) else .unparsable
    else .label t
  else .unparsable

/-- A line's label and what follows it (R63). -/
def splitLabel : List Token → Option Token × List Token
  | [] => (none, [])
  | t :: rest =>
    match declaredLabel t with
    | some l => (some l, rest)
    | none => (none, t :: rest)

/-- The record of one line, or the scan error of leftover fields (R63, R68). A line with a label and nothing else
has an empty mnemonic, which the resolve pass rejects (R76). -/
def scanLine (physical index : Nat) (fields : List Token) : Except AsmError RawLine :=
  let label := (splitLabel fields).1
  match (splitLabel fields).2 with
  | [] => .ok ⟨physical, index, label, [], none⟩
  | [m] => .ok ⟨physical, index, label, m, none⟩
  | [m, o] => .ok ⟨physical, index, label, m, some (parseOperand o)⟩
  | _ => .error .trailingTokens

/-- Enters a line's label in the symbol table (R68), or refuses it (R74). DESIGN CHOICE (log entry 8): the refusal is
a scan error, and a reserved label is found before a duplicate one. -/
def declareLabel (label : Option Token) (index : Nat) (table : SymbolTable) : Except AsmError SymbolTable :=
  match label with
  | none => .ok table
  | some l =>
    if isMnemonic l then .error .reservedLabel
    else if (lookupSymbol l table).isSome then .error .duplicateLabel
    else .ok ((l, index) :: table)

/-- The instruction-producing lines of a text with their physical positions: lines that are empty or only a comment
are skipped and take no address (R64). -/
def instrLinesFrom (physical : Nat) : List (List Char) → List (Nat × List Token)
  | [] => []
  | line :: rest =>
    if lineFields line = [] then instrLinesFrom (physical + 1) rest
    else (physical, lineFields line) :: instrLinesFrom (physical + 1) rest

/-- The instruction-producing lines of a text (R64). -/
def instrLines (text : List Char) : List (Nat × List Token) := instrLinesFrom 0 (splitLines text)

/-- The scan pass over the lines, in order, stopping at the first error (R68, R73). DESIGN CHOICE (log entry 8):
DuplicateLabel and a declared ReservedLabel are found here, so they win over every resolve error of the text, that of
an earlier line and InvalidOpcode on a label-only line included. -/
def scanFrom (index : Nat) (table : SymbolTable) :
    List (Nat × List Token) → Except AsmFailure (List RawLine × SymbolTable)
  | [] => .ok ([], table)
  | (physical, fields) :: rest =>
    match scanLine physical index fields with
    | .error e => .error (failAt e physical index)
    | .ok raw =>
      match declareLabel raw.label index table with
      | .error e => .error (failAt e physical index)
      | .ok table' =>
        match scanFrom (index + 1) table' rest with
        | .error f => .error f
        | .ok (raws, final) => .ok (raw :: raws, final)

/-- The scan pass, with the length check first: 32 or more instruction-producing lines are rejected outright
(R69; log entry 6). -/
def scan (text : List Char) : Except AsmFailure (List RawLine × SymbolTable) :=
  match (instrLines text)[Config.asmLimit - 1]? with
  | some (physical, _) => .error (failAt .programTooLong physical (Config.asmLimit - 1))
  | none => scanFrom 0 [] (instrLines text)

/-- An operand after the first two steps of the resolve pass. -/
inductive Resolved where
  | absent
  | value (v : Nat)
  | unparsable
  deriving DecidableEq, Repr

/-- The range check of the resolve pass (R71 step 2). -/
def checkRange (v : Nat) : Except AsmError Resolved :=
  if v ≥ 32 then .error .operandOverflow else .ok (.value v)

/-- Steps 1 and 2 of the resolve pass (R71): the label lookup, then the range check. -/
def resolveOperand (table : SymbolTable) : Option Operand → Except AsmError Resolved
  | none => .ok .absent
  | some .unparsable => .ok .unparsable
  | some (.literal v) => checkRange v
  | some (.label name) =>
    if isMnemonic name then .error .reservedLabel
    else
      match lookupSymbol name table with
      | none => .error .unknownSymbol
      | some v => checkRange v

/-- A mnemonic that forbids an operand (R65). -/
def withoutOperand (i : SourceInstr) : Resolved → Except AsmError SourceInstr
  | .absent => .ok i
  | .value _ => .error .unexpectedOperand
  | .unparsable => .error .unexpectedOperand

/-- A mnemonic that requires an operand (R65). -/
def withOperand (make : Byte → SourceInstr) : Resolved → Except AsmError SourceInstr
  | .value v => .ok (make (BitVec.ofNat 8 v))
  | .absent => .error .missingOperand
  | .unparsable => .error .missingOperand

/-- What a mnemonic produces (R65); STOP is `Clear(1)`. -/
def buildInstr (form : MnemonicForm) (r : Resolved) : Except AsmError SourceInstr :=
  match form with
  | .clear => withoutOperand (.clear 0) r
  | .stop => withoutOperand (.clear 1) r
  | .inc => withoutOperand .inc r
  | .dec => withoutOperand .dec r
  | .add => withOperand .add r
  | .load => withOperand .load r
  | .store => withOperand .store r
  | .jump => withOperand .jump r
  | .branch => withOperand .branchIfNotZero r

/-- The resolve pass on one record, its three steps in order (R71). -/
def resolveLine (table : SymbolTable) (raw : RawLine) : Except AsmError SourceInstr :=
  match resolveOperand table raw.operand with
  | .error e => .error e
  | .ok r =>
    match mnemonicOf raw.opcode with
    | none => .error .invalidOpcode
    | some form => buildInstr form r

/-- The resolve pass (R71): each record in order, stopping at the first failure, no partial output (R73). -/
def resolveAll (table : SymbolTable) : List RawLine → Except AsmFailure (List SourceInstr)
  | [] => .ok []
  | raw :: rest =>
    match resolveLine table raw with
    | .error e => .error (failAt e raw.physical raw.index)
    | .ok i =>
      match resolveAll table rest with
      | .error f => .error f
      | .ok is => .ok (i :: is)

/-- Both passes (R68, R71). -/
def assembleChars (text : List Char) : Except AsmFailure (List SourceInstr) :=
  match scan text with
  | .error f => .error f
  | .ok (raws, table) => resolveAll table raws

/-- `assemble(text)` (R77). -/
def assemble (text : String) : Except AsmFailure (List SourceInstr) := assembleChars text.toList

end Sys2Proof.Machine
end

