-- ==== Sys2Proof/Machine/Datapath.lean ====
section
/-! DEFINITION. The core read as hardware: the decoder's control outputs (30_encoding.md R60) and the execute phase
they drive. This is a second description of the same execute phase as `exec`; the names are the spec's own (D1). -/

namespace Sys2Proof.Machine

/-- `acc_src`: where the accumulator's new value comes from (R60). -/
inductive AccSrc where
  | none
  | alu
  | mem
  deriving DecidableEq, Repr

/-- The column "data address" of R60. -/
inductive DataAccess where
  | none
  | read (a : Addr)
  | write (a : Addr)
  deriving DecidableEq, Repr

/-- The address of the access, if there is one. -/
def DataAccess.addr : DataAccess → Option Addr
  | .none => Option.none
  | .read a => some a
  | .write a => some a

/-- The control outputs of the decoder (R60). -/
structure Controls where
  haltSet : Bool
  accWe : Bool
  accSrc : AccSrc
  aluOp : Option AluOp
  zfWe : Bool
  pcLoad : Bool
  memWe : Bool
  dataAccess : DataAccess
  deriving DecidableEq, Repr

/-- All outputs inactive: the starting point of each row. -/
def idleControls : Controls := ⟨false, false, .none, none, false, false, false, .none⟩

/-- The four rows that use the arithmetic unit: `acc_we`, `acc_src` = ALU and `zf_we` together (R60, R105). -/
def aluControls (op : AluOp) : Controls :=
  { idleControls with accWe := true, accSrc := .alu, aluOp := some op, zfWe := true }

/-- The decoder's outputs from `IR` and the current `zf` (R60). -/
def controls (ir : Byte) (zf : Bool) : Controls :=
  let n := operandOf ir
  match opcodeOf ir with
  | 0b000#3 => if selectsStop n then { idleControls with haltSet := true } else aluControls .zero
  | 0b001#3 => aluControls .inc
  | 0b010#3 => aluControls .add
  | 0b011#3 => aluControls .dec
  | 0b100#3 => { idleControls with pcLoad := true }
  | 0b101#3 => { idleControls with pcLoad := branchTaken zf }
  | 0b110#3 => { idleControls with accWe := true, accSrc := .mem, dataAccess := .read (dataAddress n) }
  | _ => { idleControls with memWe := true, dataAccess := .write (dataAddress n) }

/-- The arithmetic unit's result in this phase, if an operation is selected: its inputs are the accumulator and the
zero-extended operand field (R100). -/
def aluResult (c : Controls) (s : State) : Option Byte :=
  c.aluOp.map fun op => alu op s.acc (zext8 (operandOf s.ir))

/-- The value offered to the accumulator (R60 `acc_src`): the arithmetic unit's result, or `mem_rdata`. -/
def accInput (c : Controls) (rdata : Byte) (s : State) : Option Byte :=
  match c.accSrc with
  | .none => none
  | .alu => aluResult c s
  | .mem => some rdata

/-- The accumulator after the phase. -/
def accNext (c : Controls) (rdata : Byte) (s : State) : Byte :=
  if c.accWe then (accInput c rdata s).getD s.acc else s.acc

/-- The zero flag after the phase: written only from the arithmetic unit's zero indication (R60, R105). -/
def zfNext (c : Controls) (s : State) : Bool :=
  if c.zfWe then ((aluResult c s).map zeroFlag).getD s.zf else s.zf

/-- The memory after the phase: `mem_we` writes the accumulator at the data address (R60). -/
def memNext (c : Controls) (s : State) : Memory :=
  match c.dataAccess.addr with
  | some a => if c.memWe then Memory.write s.mem a.toNat s.acc else s.mem
  | none => s.mem

/-- The execute phase as the control outputs drive it (R60), with `rdata` on the port `mem_rdata`: all state elements
load at once from the values they held before. -/
def executeByControls (rdata : Byte) (s : State) : State :=
  let c := controls s.ir s.zf
  { mem := memNext c s
    acc := accNext c rdata s
    zf := zfNext c s
    pc := if c.pcLoad then operandOf s.ir else s.pc
    halted := s.halted || c.haltSet
    ir := s.ir }

end Sys2Proof.Machine
end

