-- ==== Sys2Proof/Machine/Cycle.lean ====
section
/-! DEFINITION. The fetch-execute state machine (40_fetch_execute.md R84) with the ports of 10_state.md R24. One tick
is one phase; it is no unit of time (D13). -/

namespace Sys2Proof.Machine

/-- The states of the fetch-execute state machine (R84). -/
inductive Phase where
  | fetch
  | execute
  | halted
  deriving DecidableEq, Repr

/-- The block: the phase, and the state of R10 with the instruction register of R18. -/
structure Block where
  phase : Phase
  state : State
  deriving DecidableEq, Repr

/-- The input ports (R24). -/
structure Inputs where
  /-- reset -/
  rst : Bool
  /-- step enable -/
  run : Bool
  /-- `mem_rdata`: the byte the memory gives for `mem_addr` -/
  memRdata : Byte
  deriving DecidableEq, Repr

/-- The block after reset: FETCH with the state of R21 (R84). -/
def Block.reset : Block := ⟨.fetch, State.reset⟩

/-- The phase in which a machine stands at an instruction boundary (R84): HALTED if halted, FETCH otherwise. -/
def boundaryPhase (s : State) : Phase := if s.halted then .halted else .fetch

/-- The block at an instruction boundary. -/
def atBoundary (s : State) : Block := ⟨boundaryPhase s, s⟩

/-- One transition of R84. `rst` overrides everything (60_exceptions.md R153); `run` is looked at in FETCH only, so
that a step once begun is finished (D7; log entry 3). The byte read in either phase comes in on `mem_rdata` (R24).
HALTED performs nothing. -/
def tick (i : Inputs) (b : Block) : Block :=
  if i.rst then Block.reset
  else
    match b.phase with
    | .fetch => if i.run then ⟨.execute, latchFetched i.memRdata b.state⟩ else b
    | .execute => atBoundary (executeByControls i.memRdata b.state)
    | .halted => b

/-- The output ports (R24). `memAddr` is absent where the phase makes no access. -/
structure Ports where
  memAddr : Option Addr
  memWdata : Byte
  memWe : Bool
  halted : Bool
  accOut : Byte
  zfOut : Bool
  pcOut : Addr
  deriving DecidableEq, Repr

/-- `mem_addr` (R24): `pc` in the fetch phase, `n` in the execute phase of LOAD and STORE. -/
def portAddr (b : Block) : Option Addr :=
  match b.phase with
  | .fetch => some b.state.pc
  | .execute => (controls b.state.ir b.state.zf).dataAccess.addr
  | .halted => none

/-- The output ports in a block (R24); `mem_we` only in the execute phase of STORE. -/
def ports (b : Block) : Ports where
  memAddr := portAddr b
  memWdata := b.state.acc
  memWe := decide (b.phase = .execute) && (controls b.state.ir b.state.zf).memWe
  halted := b.state.halted
  accOut := b.state.acc
  zfOut := b.state.zf
  pcOut := b.state.pc

/-! The memory stands outside the core and meets it at the port only (10_state.md R23, R24). -/

/-- What the memory gives on `mem_rdata`: the byte at `mem_addr` (R24). Where the phase makes no access there is no
such byte, and `idle` stands for whatever the lines carry (log entry 3). -/
def memoryAnswer (idle : Byte) (b : Block) : Byte :=
  match portAddr b with
  | some a => memRead b.state a
  | none => idle

/-- What the memory holds after a tick with these outputs: `mem_we` writes `mem_wdata` at `mem_addr` (R24). -/
def memoryAfter (p : Ports) (m : Memory) : Memory :=
  match p.memAddr with
  | some a => if p.memWe then Memory.write m a.toNat p.memWdata else m
  | none => m

/-- One tick of the core with its memory attached: `mem_rdata` is the memory's answer. -/
def attachedTick (rst run : Bool) (idle : Byte) (b : Block) : Block := tick ⟨rst, run, memoryAnswer idle b⟩ b

/-- As many ticks as bytes are listed; each byte is what idle lines carry in its tick. -/
def ticks (rst run : Bool) : List Byte → Block → Block
  | [], b => b
  | idle :: rest, b => ticks rst run rest (attachedTick rst run idle b)

end Sys2Proof.Machine
end

