-- ==== Sys2Proof/Machine/Loader.lean ====
section
/-! DEFINITION. The host's side (70_reset_and_hazards.md): loading, launching, running under a bound, and the moves
a host has. Nothing here is part of a step. -/

namespace Sys2Proof.Machine

/-- Why the host's action is refused; the machine state is not changed (60_exceptions.md R163). -/
inductive HostRefusal where
  /-- more than 32 bytes to load (R174) -/
  | programTooLarge
  /-- a load into a machine that has begun to run: the spec gives it no meaning (R174, R177, D10) -/
  | alreadyStarted
  deriving DecidableEq, Repr

/-- Writes bytes at consecutive addresses from `a` upward. -/
def writeBytes : Nat → List Byte → Memory → Memory
  | _, [], m => m
  | a, v :: rest, m => writeBytes (a + 1) rest (Memory.write m a v)

/-- Program load (R174): byte `i` goes to address `i`; more than 32 bytes fail with no change. It changes memory
only, and only the addresses below the length. -/
def load (bytes : List Byte) (s : State) : Except HostRefusal State :=
  if bytes.length > Config.memSize then .error .programTooLarge
  else .ok { s with mem := writeBytes 0 bytes s.mem }

/-- The launch state of a run: reset, then load (R175). -/
def launch (bytes : List Byte) : Except HostRefusal State := load bytes State.reset

/-- A bounded run (R177): `k` steps, or fewer if the machine halts first. The bound is the host's, not the
machine's (R85, D12). -/
def runFor : Nat → State → State
  | 0, s => s
  | k + 1, s =>
    match step s with
    | .next t => runFor k t
    | .fault _ => s
    | .refused _ => s

/-- The source's entry point `run(bytes)` under a bound (R175): the final state if the machine halts within
`fuel` steps, and no result if the bound cuts it off (R85, R91). -/
def runProgram (fuel : Nat) (bytes : List Byte) : Except HostRefusal (Option State) :=
  match launch bytes with
  | .error e => .error e
  | .ok s => .ok (if (runFor fuel s).halted then some (runFor fuel s) else none)

/-- What the host can see (R177, D22): the state of R10, without the instruction register (R18). -/
structure Observation where
  mem : Memory
  acc : Byte
  zf : Bool
  pc : Addr
  halted : Bool
  deriving DecidableEq, Repr

/-- Reading the state between steps or after the halt; it changes nothing (R177). -/
def observe (s : State) : Observation := ⟨s.mem, s.acc, s.zf, s.pc, s.halted⟩

/-- A machine under a host: the machine, and whether its first step since reset has been taken. -/
structure Session where
  machine : State
  started : Bool
  deriving DecidableEq, Repr

/-- What the host may do to the machine (R177); observing is `observe` and changes nothing. -/
inductive HostMove where
  /-- apply reset, at any time (R170) -/
  | reset
  /-- present a program, after reset and before the first step (R174) -/
  | load (bytes : List Byte)
  /-- enable a number of steps; a single step is `enable 1`, an unbounded run is an `enable` of every number -/
  | enable (k : Nat)
  deriving DecidableEq, Repr

/-- The effect of a move, or its refusal (R177). -/
def hostMove (m : HostMove) (w : Session) : Except HostRefusal Session :=
  match m with
  | .reset => .ok ⟨State.reset, false⟩
  | .load bytes =>
    if w.started then .error .alreadyStarted
    else
      match load bytes w.machine with
      | .error e => .error e
      | .ok s => .ok ⟨s, false⟩
  | .enable k => .ok ⟨runFor k w.machine, w.started || k != 0⟩

end Sys2Proof.Machine
end

