-- ==== Sys2Proof/Safety.lean ====
section
/-! DEFINITION. What claims call a safe run, the end of a run, and a run without end. -/

namespace Sys2Proof.Machine

/-- A run of `k` steps either reaches a state or stops because the machine had halted: no fault (60_exceptions.md
R150) and no instruction without a meaning. -/
def RunsSafely (s : State) : Prop :=
  ∀ k, (∃ t, Host.Core.run Sys2Proof.core k s = .next t) ∨ Host.Core.run Sys2Proof.core k s = .refused Refusal.halted

/-- The run from `s` ends in the final state `t` (40_fetch_execute.md R91). -/
def EndsIn (s t : State) : Prop := ∃ k, runFor k s = t ∧ t.halted = true

/-- The run from `s` never halts (R86): a property of the machine, not an error. -/
def NeverHalts (s : State) : Prop := ∀ k, (runFor k s).halted = false

end Sys2Proof.Machine
end

