-- ==== Sys2Proof/Certificates/Slice0/Obligations.lean ====
section
/-! DEFINITION. The statements for the provers. Each docstring names the rule of spec/ it formalises. -/

open Sys2Proof Sys2Proof.Machine

namespace Sys2Proof.Reference

/-! The pseudocode of 40_fetch_execute.md R88 over plain numbers, written from the spec and from nothing of the
model: the yardstick the model's step is held to. -/

/-- The state record of 10_state.md R10, every component a number or a Boolean. -/
structure Record where
  mem : Nat → Nat
  x0 : Nat
  zf : Bool
  pc : Nat
  halted : Bool

/-- `MemWrite(a, 1, v)` on a record. -/
def Record.memWrite (r : Record) (a v : Nat) : Record := { r with mem := fun b => if b = a then v else r.mem b }

/-- The arithmetic rows of R88: the new accumulator `v`, and the flag `(v == 0)`. -/
def Record.result (r : Record) (v : Nat) : Record := { r with x0 := v, zf := v == 0 }

/-- R88, line by line; `op = IR div 32` and `n = IR mod 32` (R51). -/
def Record.step (r : Record) : Record :=
  let ir := r.mem r.pc
  let op := ir / 32
  let n := ir % 32
  let r := { r with pc := (r.pc + 1) % 32 }
  match op with
  | 0 => if n = 0 then { r with x0 := 0, zf := true } else { r with halted := true }
  | 1 => r.result ((r.x0 + 1) % 256)
  | 2 => r.result ((r.x0 + n) % 256)
  | 3 => r.result ((r.x0 + 255) % 256)
  | 4 => { r with pc := n }
  | 5 => if r.zf = false then { r with pc := n } else r
  | 6 => { r with x0 := r.mem n }
  | _ => r.memWrite n r.x0

/-- `k` steps of the pseudocode, "enabled only when halted == false". -/
def Record.run : Nat → Record → Record
  | 0, r => r
  | k + 1, r => if r.halted then r else Record.run k r.step

/-- What a model state says of the record. -/
def view (s : State) : Record where
  mem := fun a => (Memory.read s.mem a).toNat
  x0 := s.acc.toNat
  zf := s.zf
  pc := s.pc.toNat
  halted := s.halted

/-- The execute phases of a list of instructions, one after another. -/
def execAll : List Instr → State → Host.Outcome State Fault Refusal
  | [], s => .next s
  | i :: rest, s =>
    match exec i s with
    | .next t => execAll rest t
    | .fault r => .fault r
    | .refused r => .refused r

/-- The state the fetch phase leaves (R81), written out: `IR` holds the byte at `pc`, and `pc` is one more. -/
def afterFetch (s : State) : State := { s with ir := memRead s s.pc, pc := s.pc + 1 }

/-- Control falls through: the pc is the address after the instruction's, modulo 32. -/
def followingPc (s : State) : Addr := BitVec.ofNat 5 ((s.pc.toNat + 1) % 32)

/-- The instructions that write the accumulator (10_state.md R12). -/
def writesAcc : Instr → Bool
  | .clear | .inc | .add _ | .dec | .load _ => true
  | .stop _ | .jmp _ | .bnz _ | .store _ => false

/-- The instructions that read the accumulator (R12). -/
def readsAcc : Instr → Bool
  | .inc | .add _ | .dec | .store _ => true
  | .clear | .stop _ | .jmp _ | .bnz _ | .load _ => false

/-- The instructions that write the zero flag (R14). -/
def writesZf : Instr → Bool
  | .clear | .inc | .add _ | .dec => true
  | .stop _ | .jmp _ | .bnz _ | .load _ | .store _ => false

/-- STOP, whatever its operand (R140). -/
def isStop : Instr → Bool
  | .stop _ => true
  | .clear | .inc | .add _ | .dec | .jmp _ | .bnz _ | .load _ | .store _ => false

/-- The target of a control transfer that is taken when the flag is `zf`, if the instruction is one (R120, R121). -/
def takenTarget (zf : Bool) : Instr → Option Addr
  | .jmp n => some n
  | .bnz n => if zf = false then some n else none
  | .clear | .stop _ | .inc | .add _ | .dec | .load _ | .store _ => none

/-- The address an instruction stores to: the one STORE computes from its operand (R131, R132). -/
def storedAddress : Instr → Option Addr
  | .store n => some (dataAddress n)
  | .clear | .stop _ | .inc | .add _ | .dec | .jmp _ | .bnz _ | .load _ => none

end Sys2Proof.Reference

open Sys2Proof.Reference

/-! ## Encoding -/

/-- R59: the worked encodings of the source, both ways. -/
def Obligations.WorkedEncodings : Prop :=
  decode 0x00 = .clear ∧ encode .clear = 0x00 ∧ decode 0x01 = .stop 1 ∧ encode (.stop 1) = 0x01 ∧
    decode 0b01001111 = .add 15 ∧ encode (.add 15) = 0x4F ∧ decode 0b11100000 = .store 0 ∧
    encode (.store 0) = 0xE0

/-- R51: `op = b div 32`, `n = b mod 32`, the byte is `op * 32 + n`, and the two maps are inverse bijections. -/
def Obligations.FieldMapsAreInverse : Prop :=
  (∀ b : Byte, (opcodeOf b).toNat = b.toNat / 32 ∧ (operandOf b).toNat = b.toNat % 32 ∧
      joinByte (opcodeOf b) (operandOf b) = b) ∧
    ∀ (op : Opcode) (n : Addr), (joinByte op n).toNat = op.toNat * 32 + n.toNat ∧
      opcodeOf (joinByte op n) = op ∧ operandOf (joinByte op n) = n

/-- R53 and R54: the opcode map in increasing opcode order, opcode 0 split on the whole operand, and the canonical
bytes of the two instructions that do not use it. -/
def Obligations.OpcodeMapInOrder : Prop :=
  ∀ n : Addr,
    decode (joinByte 0 n) = (if n = 0 then .clear else .stop n) ∧ decode (joinByte 1 n) = .inc ∧
      decode (joinByte 2 n) = .add n ∧ decode (joinByte 3 n) = .dec ∧ decode (joinByte 4 n) = .jmp n ∧
      decode (joinByte 5 n) = .bnz n ∧ decode (joinByte 6 n) = .load n ∧ decode (joinByte 7 n) = .store n ∧
      encode .inc = 0x20 ∧ encode .dec = 0x60

/-- R55 and D21: the decoder gives every byte a well-formed instruction, and exactly one row of the opcode table
accepts the byte, the row with that instruction's mnemonic. -/
def Obligations.EveryByteHasOneRow : Prop :=
  ∀ b : Byte, (decode b).wf = true ∧
    ∃ r ∈ opcodeTable, r.accepts b = true ∧ r.mnemonic = (decode b).mnemonic ∧
      ∀ r' ∈ opcodeTable, r'.accepts b = true → r' = r

/-- R58: both round trips with their exact domain, for the spec's instructions and for the source's variant type. -/
def Obligations.DecodeEncodeRoundTrips : Prop :=
  (∀ i : Instr, i.wf = true → decode (encode i) = i) ∧
    (∀ (i : SourceInstr) (b : Byte), encodeSource i = .ok b → decodeSource b = i) ∧
    ∀ b : Byte,
      ((encode (decode b) = b ∧ encodeSource (decodeSource b) = .ok b) ∨
        ((opcodeOf b = 1 ∨ opcodeOf b = 3) ∧ operandOf b ≠ 0)) ∧
      ((opcodeOf b = 1 ∨ opcodeOf b = 3) ∧ operandOf b ≠ 0 →
        encode (decode b) ≠ b ∧ encode (decode b) = joinByte (opcodeOf b) 0 ∧
          encodeSource (decodeSource b) = .ok (joinByte (opcodeOf b) 0))

/-- R57: the source's `encode` fails exactly on an operand of 32 or more, gives `{op, n}` otherwise and the
canonical byte where there is no operand; its `decode` follows the opcode and keeps the operand. -/
def Obligations.SourceEncodeNeverTruncates : Prop :=
  (∀ (i : SourceInstr) (n : Byte), i.operand = some n →
      (n.toNat ≥ 32 → encodeSource i = .error .operandOutOfRange) ∧
        (n.toNat < 32 → ∃ b : Byte, encodeSource i = .ok b ∧ b.toNat = i.opcode.toNat * 32 + n.toNat)) ∧
    encodeSource .inc = .ok 0x20 ∧ encodeSource .dec = .ok 0x60 ∧
    ∀ (op : Opcode) (n : Addr), (decodeSource (joinByte op n)).opcode = op ∧
      (decodeSource (joinByte op n)).operand =
        if op = 1 ∨ op = 3 then none else some (BitVec.ofNat 8 n.toNat)

/-- R9 and R53: the source's variant and the spec's instruction read from one byte are the same instruction. -/
def Obligations.SourceVariantIsAView : Prop :=
  (∀ b : Byte, (decodeSource b).toInstr = some (decode b)) ∧
    ∀ (i : SourceInstr) (j : Instr), i.toInstr = some j → encodeSource i = .ok (encode j) ∧ j.wf = true

/-! ## The instructions: what each does, and that it completes -/

/-- R101: CLEAR is the byte 0x00 alone, resets the accumulator, sets the flag and changes nothing else. -/
def Obligations.ClearResetsAccumulator : Prop :=
  (∀ b : Byte, decode b = .clear ↔ b = 0x00) ∧
    (∀ (s : State), exec .clear s = .next { s with acc := 0, zf := true }) ∧
    (∀ (s : State), exec .clear s = .next s ↔ s.acc = 0 ∧ s.zf = true) ∧
    ∀ (s : State), s.halted = false → memRead s s.pc = 0x00 →
      step s = .next { afterFetch s with acc := 0, zf := true }

/-- R102: INC is every byte 0x20 to 0x3F, adds one modulo 256, and sets the flag exactly from 255. -/
def Obligations.IncAddsOne : Prop :=
  (∀ b : Byte, decode b = .inc ↔ 0x20 ≤ b.toNat ∧ b.toNat ≤ 0x3F) ∧
    (∀ (s : State), exec .inc s =
      .next { s with acc := BitVec.ofNat 8 ((s.acc.toNat + 1) % 256), zf := (s.acc.toNat + 1) % 256 == 0 }) ∧
    (∀ (s t : State), exec .inc s = .next t → (t.zf = true ↔ s.acc = 255)) ∧
    ∀ (s : State), s.halted = false → 0x20 ≤ (memRead s s.pc).toNat → (memRead s s.pc).toNat ≤ 0x3F →
      step s = .next { afterFetch s with
        acc := BitVec.ofNat 8 ((s.acc.toNat + 1) % 256), zf := (s.acc.toNat + 1) % 256 == 0 }

/-- R103: ADD n is the byte 0x40 + n, adds the unsigned operand modulo 256, and sets the flag exactly when the sum
is 0 or 256. -/
def Obligations.AddAddsImmediate : Prop :=
  (∀ (b : Byte) (n : Addr), decode b = .add n ↔ b.toNat = 0x40 + n.toNat) ∧
    (∀ (n : Addr) (s : State), exec (.add n) s =
      .next { s with
        acc := BitVec.ofNat 8 ((s.acc.toNat + n.toNat) % 256), zf := (s.acc.toNat + n.toNat) % 256 == 0 }) ∧
    (∀ (n : Addr) (s t : State), exec (.add n) s = .next t →
      (t.zf = true ↔ (s.acc = 0 ∧ n = 0) ∨ (1 ≤ n.toNat ∧ s.acc.toNat = 256 - n.toNat))) ∧
    ∀ (n : Addr) (s : State), s.halted = false → (memRead s s.pc).toNat = 0x40 + n.toNat →
      step s = .next { afterFetch s with
        acc := BitVec.ofNat 8 ((s.acc.toNat + n.toNat) % 256), zf := (s.acc.toNat + n.toNat) % 256 == 0 }

/-- R104: DEC is every byte 0x60 to 0x7F, subtracts one modulo 256, and sets the flag exactly from 1. -/
def Obligations.DecSubtractsOne : Prop :=
  (∀ b : Byte, decode b = .dec ↔ 0x60 ≤ b.toNat ∧ b.toNat ≤ 0x7F) ∧
    (∀ (s : State), exec .dec s =
      .next { s with acc := BitVec.ofNat 8 ((s.acc.toNat + 255) % 256), zf := (s.acc.toNat + 255) % 256 == 0 }) ∧
    (∀ (s t : State), exec .dec s = .next t → (t.zf = true ↔ s.acc = 1)) ∧
    ∀ (s : State), s.halted = false → 0x60 ≤ (memRead s s.pc).toNat → (memRead s s.pc).toNat ≤ 0x7F →
      step s = .next { afterFetch s with
        acc := BitVec.ofNat 8 ((s.acc.toNat + 255) % 256), zf := (s.acc.toNat + 255) % 256 == 0 }

/-- R120: JMP n is the byte 0x80 + n and loads the program counter with n; in a step the load replaces the fetch
increment. -/
def Obligations.JmpLoadsTarget : Prop :=
  (∀ (b : Byte) (n : Addr), decode b = .jmp n ↔ b.toNat = 0x80 + n.toNat) ∧
    (∀ (n : Addr) (s : State), exec (.jmp n) s = .next { s with pc := n }) ∧
    ∀ (n : Addr) (s : State), s.halted = false → (memRead s s.pc).toNat = 0x80 + n.toNat →
      step s = .next { afterFetch s with pc := n }

/-- R121: BNZ n is the byte 0xA0 + n; it loads the program counter when the FLAG is false and does nothing when it
is true, whatever the accumulator holds. -/
def Obligations.BnzTestsFlag : Prop :=
  (∀ (b : Byte) (n : Addr), decode b = .bnz n ↔ b.toNat = 0xA0 + n.toNat) ∧
    (∀ (n : Addr) (s : State), s.zf = false → exec (.bnz n) s = .next { s with pc := n }) ∧
    (∀ (n : Addr) (s : State), s.zf = true → exec (.bnz n) s = .next s) ∧
    ∀ (n : Addr) (s : State), s.halted = false → (memRead s s.pc).toNat = 0xA0 + n.toNat →
      step s = .next { afterFetch s with
        pc := if s.zf = false then n else BitVec.ofNat 5 ((s.pc.toNat + 1) % 32) }

/-- R130: LOAD n is the byte 0xC0 + n and copies the whole byte at n into the accumulator; the flag is not written,
which is the spec's own decision D4. -/
def Obligations.LoadCopiesByte : Prop :=
  (∀ (b : Byte) (n : Addr), decode b = .load n ↔ b.toNat = 0xC0 + n.toNat) ∧
    (∀ (n : Addr) (s : State), exec (.load n) s = .next { s with acc := memRead s n }) ∧
    ∀ (n : Addr) (s : State), s.halted = false → (memRead s s.pc).toNat = 0xC0 + n.toNat →
      step s = .next { afterFetch s with acc := memRead s n }

/-- R131: STORE n is the byte 0xE0 + n and copies the accumulator into the byte at n; every other byte and every
other component is unchanged. The memory's canonical form, a premise that is kept, is the model's choice of
representation and in no rule (log entry 4). -/
def Obligations.StoreCopiesAccumulator : Prop :=
  (∀ (b : Byte) (n : Addr), decode b = .store n ↔ b.toNat = 0xE0 + n.toNat) ∧
    (∀ (n : Addr) (s : State), Memory.wf s.mem = true →
      ∃ (t : State), exec (.store n) s = .next t ∧ memRead t n = s.acc ∧
        (∀ a : Addr, a ≠ n → memRead t a = memRead s a) ∧ t = { s with mem := t.mem } ∧ Memory.wf t.mem = true) ∧
    ∀ (n : Addr) (s : State), Memory.wf s.mem = true → s.halted = false →
      (memRead s s.pc).toNat = 0xE0 + n.toNat →
      ∃ (t : State), step s = .next t ∧ memRead t n = s.acc ∧
        (∀ a : Addr, a ≠ n → memRead t a = memRead s a) ∧ t = { afterFetch s with mem := t.mem }

/-- R140: STOP is every byte 0x01 to 0x1F; all 31 set the halted latch and change nothing else, and none clears the
accumulator. -/
def Obligations.StopHaltsMachine : Prop :=
  (∀ b : Byte, (∃ (n : Addr), decode b = .stop n) ↔ 0x01 ≤ b.toNat ∧ b.toNat ≤ 0x1F) ∧
    (∀ (n : Addr) (s : State), exec (.stop n) s = .next { s with halted := true }) ∧
    ∀ (s : State), s.halted = false → 0x01 ≤ (memRead s s.pc).toNat → (memRead s s.pc).toNat ≤ 0x1F →
      step s = .next { afterFetch s with halted := true }

/-! ## Frames -/

/-- R108: CLEAR, INC, ADD and DEC read and write no memory, leave `halted`, and leave `pc` at the following address.
-/
def Obligations.ArithmeticFrame : Prop :=
  (∀ (i : Instr) (s t : State), (i = .clear ∨ i = .inc ∨ i = .dec ∨ ∃ (n : Addr), i = .add n) → exec i s = .next t →
      (∀ a : Addr, memRead t a = memRead s a) ∧ t.mem = s.mem ∧ t.pc = s.pc ∧ t.halted = s.halted ∧ t.ir = s.ir ∧
        ∀ m : Memory, exec i { s with mem := m } = .next { t with mem := m }) ∧
    ∀ (s t : State) (i : Instr), decode (memRead s s.pc) = i →
      (i = .clear ∨ i = .inc ∨ i = .dec ∨ ∃ (n : Addr), i = .add n) →
      step s = .next t → t.pc = followingPc s ∧ (∀ a : Addr, memRead t a = memRead s a) ∧ t.halted = s.halted

/-- R20 (the spec's decision D4), rows JMP, BNZ, STOP and LOAD: a control transfer changes nothing but `pc`, STOP
nothing but the halted latch, LOAD nothing but the accumulator, the zero flag included; none stores to memory. -/
def Obligations.NonStoringFrame : Prop :=
  (∀ (i : Instr) (s t : State), ((∃ (n : Addr), i = .jmp n) ∨ ∃ (n : Addr), i = .bnz n) → exec i s = .next t →
      t.acc = s.acc ∧ t.zf = s.zf ∧ t.halted = s.halted ∧ t.ir = s.ir ∧ t.mem = s.mem ∧
        ∀ a : Addr, memRead t a = memRead s a) ∧
    (∀ (n : Addr) (s t : State), exec (.stop n) s = .next t →
      t.acc = s.acc ∧ t.zf = s.zf ∧ t.pc = s.pc ∧ t.ir = s.ir ∧ t.mem = s.mem ∧
        ∀ a : Addr, memRead t a = memRead s a) ∧
    ∀ (n : Addr) (s t : State), exec (.load n) s = .next t →
      t.zf = s.zf ∧ t.pc = s.pc ∧ t.halted = s.halted ∧ t.ir = s.ir ∧ t.mem = s.mem ∧
        ∀ a : Addr, memRead t a = memRead s a

/-- R20 (the spec's decision D4), row STORE: nothing but the one byte at the computed address changes. -/
def Obligations.StoreFrame : Prop :=
  ∀ (n : Addr) (s t : State), exec (.store n) s = .next t →
    t.acc = s.acc ∧ t.zf = s.zf ∧ t.pc = s.pc ∧ t.halted = s.halted ∧ t.ir = s.ir ∧
      ∀ target : Addr, dataAddress n = target → ∀ a : Addr, a ≠ target → memRead t a = memRead s a

/-- R20, the whole table, over all instructions at once. That what is not mentioned is unchanged is the spec's own
decision D4. -/
def Obligations.FrameTable : Prop :=
  ∀ (i : Instr) (s t : State), exec i s = .next t →
    (writesAcc i = false → t.acc = s.acc) ∧ (writesZf i = false → t.zf = s.zf) ∧
      t.pc = (takenTarget s.zf i).getD s.pc ∧
      (∀ a : Addr, storedAddress i ≠ some a → memRead t a = memRead s a) ∧
      t.halted = (s.halted || isStop i) ∧ t.ir = s.ir

/-! ## Registers and the flag over all instructions -/

/-- R12: which instructions write the accumulator and which read it. A component not read has no influence: with
another accumulator the instruction does the same to everything else, and writes the same value if it writes one;
and each of those that read it has a state in which another accumulator makes a difference. -/
def Obligations.AccumulatorAccessTable : Prop :=
  (∀ (i : Instr) (s t : State), exec i s = .next t →
      (writesAcc i = false → t.acc = s.acc) ∧
        (readsAcc i = false → ∀ v : Byte,
          exec i { s with acc := v } = .next { t with acc := if writesAcc i then t.acc else v })) ∧
    ∀ i : Instr, readsAcc i = true →
      ∃ (s t u : State) (v : Byte), exec i s = .next t ∧ exec i { s with acc := v } = .next u ∧
        (t.acc ≠ u.acc ∧ writesAcc i = true ∨ t.mem ≠ u.mem)

/-- R105, and the table of R14 (the spec's decision D4): exactly CLEAR (true), INC, ADD and DEC write the flag, and
after each of them it is `x[0] == 0`; reset makes it true. -/
def Obligations.FlagWriters : Prop :=
  (∀ (i : Instr) (s t : State), exec i s = .next t →
      (i = .clear → t.zf = true) ∧ (writesZf i = true → (t.zf = true ↔ t.acc = 0)) ∧
        (writesZf i = false → t.zf = s.zf)) ∧
    State.reset.zf = true

/-- R15 (marked derived by the spec): only BNZ reads the flag; the flag agrees with the accumulator at reset, JMP,
BNZ, STORE and STOP keep the agreement, the four writers make it, and a LOAD can break it. -/
def Obligations.FlagAgreementBrokenOnlyByLoad : Prop :=
  (∀ (i : Instr) (s t : State) (b : Bool), (∀ (n : Addr), i ≠ .bnz n) → exec i s = .next t →
      exec i { s with zf := b } = .next { t with zf := if writesZf i then t.zf else b }) ∧
    (∀ (n : Addr) (s t : State), exec (.bnz n) s = .next t → t.pc = if s.zf = false then n else s.pc) ∧
    (State.reset.zf = (State.reset.acc == 0)) ∧
    (∀ (s t : State), s.zf = (s.acc == 0) → (∀ (n : Addr), decode (memRead s s.pc) ≠ .load n) → step s = .next t →
      t.zf = (t.acc == 0)) ∧
    (∀ (s t : State), writesZf (decode (memRead s s.pc)) = true → step s = .next t → t.zf = (t.acc == 0)) ∧
    ∃ (s t : State) (n : Addr), s.zf = (s.acc == 0) ∧ exec (.load n) s = .next t ∧ t.zf ≠ (t.acc == 0)

/-- R83 and R124: after a step `pc` is the target of a taken transfer, exactly, and otherwise the following address
modulo 32. -/
def Obligations.ProgramCounterWriters : Prop :=
  ∀ (s t : State), step s = .next t →
    t.pc = (takenTarget s.zf (decode (memRead s s.pc))).getD (followingPc s)

/-- R134 and R42: only LOAD and STORE make data accesses. An instruction that is no LOAD does the same over any
memory, and an instruction that is no STORE leaves the memory as it is. -/
def Obligations.DataAccessesAreLoadAndStore : Prop :=
  ∀ (i : Instr) (s t : State), exec i s = .next t →
    ((∀ (n : Addr), i ≠ .store n) → t.mem = s.mem) ∧
      ((∀ (n : Addr), i ≠ .store n) → (∀ (n : Addr), i ≠ .load n) → ∀ m : Memory,
        exec i { s with mem := m } = .next { t with mem := m })

/-! ## The arithmetic unit -/

/-- R100 (the grouping is the spec's decision D1): the four operations of the unit over numbers, and its zero
indication. -/
def Obligations.ArithmeticUnit : Prop :=
  (∀ (a : Byte) (n : Addr), (zext8 n).toNat = n.toNat ∧ (alu .zero a (zext8 n)).toNat = 0 ∧
      (alu .inc a (zext8 n)).toNat = (a.toNat + 1) % 256 ∧
      (alu .add a (zext8 n)).toNat = (a.toNat + n.toNat) % 256 ∧
      (alu .dec a (zext8 n)).toNat = (a.toNat + 255) % 256) ∧
    ∀ r : Byte, zeroFlag r = true ↔ r.toNat = 0

/-- R107, laws (a) to (f), which the spec marks as derived. -/
def Obligations.ArithmeticLaws : Prop :=
  (∀ (s : State), exec .inc s = exec (.add 1) s) ∧
    (∀ (s : State), ∃ (t : State), execAll [.dec, .inc] s = .next t ∧ execAll [.inc, .dec] s = .next t ∧ t.acc = s.acc ∧
      t.zf = (t.acc == 0)) ∧
    (∀ (s : State), ∃ (t u : State), execAll (List.replicate 256 .inc) s = .next t ∧ t.acc = s.acc ∧
      execAll (List.replicate 256 .dec) s = .next u ∧ u.acc = s.acc) ∧
    (∀ s (a b : Addr), a.toNat + b.toNat ≤ 31 → execAll [.add a, .add b] s = exec (.add (a + b)) s) ∧
    (∀ (i : Instr) (s t : State), (i = .clear ∨ i = .inc ∨ i = .dec ∨ ∃ (n : Addr), i = .add n) → exec i s = .next t →
      t.zf = (t.acc == 0) ∧ ∀ b, exec i { s with zf := b } = .next t)

/-! ## Memory -/

/-- R31 and R32: a write sets one byte and nothing else, and a read of an address gives the latest write. The
memory's canonical form, a premise that is kept, is the model's choice of representation and in no rule (log entry
4). -/
def Obligations.ReadGivesLatestWrite : Prop :=
  ∀ s (a : Addr) (v : Byte), Memory.wf s.mem = true →
    memRead (memWrite s a v) a = v ∧ (∀ b : Addr, b ≠ a → memRead (memWrite s a v) b = memRead s b) ∧
      memWrite s a v = { s with mem := (memWrite s a v).mem } ∧ Memory.wf (memWrite s a v).mem = true

/-- The canonical form is canonical (the model's representation of R23, log entry 4): two memories in it that read
alike at the 32 addresses are the same list. -/
def Obligations.CanonicalMemoriesAreEqual : Prop :=
  ∀ m m' : Memory, Memory.wf m = true → Memory.wf m' = true →
    (∀ a : Addr, Memory.read m a.toNat = Memory.read m' a.toNat) → m = m'

/-- Every step keeps the memory's canonical form, from every state that has it (log entry 4). -/
def Obligations.StepKeepsCanonicalMemory : Prop :=
  (∀ (s t : State), Memory.wf s.mem = true → step s = .next t → Memory.wf t.mem = true) ∧
    (∀ (k : Nat) (s : State), Memory.wf s.mem = true → Memory.wf (runFor k s).mem = true) ∧
    ∀ (m : HostMove) (w w' : Session), Memory.wf w.machine.mem = true → hostMove m w = .ok w' →
      Memory.wf w'.machine.mem = true

/-- The memory at reset is in the canonical form (log entry 4). -/
def Obligations.ResetMemoryIsCanonical : Prop := Memory.wf State.reset.mem = true

/-- R40: a store is seen by every later fetch, with nothing needed between. After a STORE the byte at its address is
the accumulator's, also when that address is the STORE's own; every later state in which that byte still stands and
which fetches from that address runs the stored byte, and if it is the next address, the very next step does. -/
def Obligations.StoreIsSeenByNextFetch : Prop :=
  ∀ (s t : State) (n : Addr), Memory.wf s.mem = true → decode (memRead s s.pc) = .store n → step s = .next t →
    memRead t n = s.acc ∧ t.acc = s.acc ∧ t.pc = followingPc s ∧
      (n = followingPc s → step t = exec (decode s.acc) { t with ir := s.acc, pc := followingPc t }) ∧
      ∀ (u : State), memRead u n = memRead t n → u.pc = n → u.halted = false →
        step u = exec (decode s.acc) { u with ir := s.acc, pc := followingPc u }

/-! ## Steps and runs -/

/-- R81: the fetch phase reads the byte at `pc` into `IR`, increments `pc` modulo 32, and changes nothing else. -/
def Obligations.FetchPhase : Prop :=
  ∀ (s : State), (fetch s).ir = memRead s s.pc ∧ (fetch s).pc.toNat = (s.pc.toNat + 1) % 32 ∧
    fetch s = { s with ir := (fetch s).ir, pc := (fetch s).pc }

/-- R80, R82, R90: a step of a machine that is not halted is the execute phase of the byte at `pc`, decoded, in the
state the fetch phase leaves. -/
def Obligations.StepRunsDecodedInstruction : Prop :=
  ∀ (s : State) (i : Instr), s.halted = false → decode (memRead s s.pc) = i →
    step s = exec i { s with ir := memRead s s.pc, pc := followingPc s }

/-- R89 and R150: from every state that is not halted the step answers a next state. No step is a fault (the type
Fault is empty, log entry 14), and the one refusal is that of a halted machine, under the name `halted`: R142 with the
spec's decisions D8 and U9, log entry 11. -/
def Obligations.StepIsTotal : Prop :=
  (∀ (s : State), s.halted = false → ∃ (t : State), step s = .next t) ∧
    (∀ (s : State) (r : Fault), step s ≠ .fault r) ∧
    ∀ (s : State) (r : Refusal), step s = .refused r → s.halted = true ∧ r = .halted

/-- R88 (marked derived: the composition of R81, R82 and the instruction rules): the model's step, seen as numbers,
is the pseudocode of the spec. -/
def Obligations.StepIsPseudocode : Prop :=
  ∀ (s : State), Memory.wf s.mem = true → s.halted = false →
    ∃ (t : State), step s = .next t ∧ view t = Record.step (view s)

/-- R85, R88: a bounded run of any length, from any state, is that many steps of the pseudocode. -/
def Obligations.RunIsPseudocode : Prop :=
  ∀ (k : Nat) (s : State), Memory.wf s.mem = true → view (runFor k s) = Record.run k (view s)

/-- R141 and R91: only a STOP byte ends a run, and the final state differs from the one before only in `pc`, which
has advanced by one modulo 32, in `halted`, and in the fetched byte in `IR`. -/
def Obligations.OnlyStopEndsRun : Prop :=
  (∀ (s t : State), step s = .next t → t.halted = true →
      0x01 ≤ (memRead s s.pc).toNat ∧ (memRead s s.pc).toNat ≤ 0x1F ∧
        t = { s with ir := memRead s s.pc, pc := followingPc s, halted := true }) ∧
    ∀ (k : Nat) (s : State), s.halted = false → (runFor k s).halted = true →
      ∃ j : Nat, j < k ∧ (runFor j s).halted = false ∧
        runFor k s = { runFor j s with
          ir := memRead (runFor j s) (runFor j s).pc, pc := followingPc (runFor j s), halted := true }

/-- R142 (the spec's decision D8; the refusal is U9's, log entry 11): a halted machine takes no step, however many
are enabled, and of the host's moves only reset takes it out of the halted state. -/
def Obligations.HaltedStateIsFinal : Prop :=
  (∀ (s : State), s.halted = true → step s = .refused .halted ∧ ∀ (k : Nat), runFor k s = s) ∧
    ∀ (m : HostMove) (w w' : Session), w.machine.halted = true → w.started = true →
      hostMove m w = .ok w' → m ≠ .reset → w'.machine = w.machine

/-- R85: the bound is outside the machine. A run continues where it was cut off, and a final state does not depend
on the bound. -/
def Obligations.BoundDoesNotMatter : Prop :=
  (∀ (j k : Nat) (s : State), runFor (j + k) s = runFor k (runFor j s)) ∧
    ∀ (s t u : State), EndsIn s t → EndsIn s u → t = u

/-- R150, R151: no run faults or meets an instruction without a meaning. -/
def Obligations.EveryRunIsSafe : Prop := ∀ (s : State), RunsSafely s

/-- R18: the instruction register is never observed. States that the host sees as equal stay so under every run, and
answer their next step alike. -/
def Obligations.InstructionRegisterIsInvisible : Prop :=
  ∀ (s s' : State), observe s = observe s' →
    (∀ (k : Nat), observe (runFor k s) = observe (runFor k s')) ∧
      ∀ (t : State), step s = .next t → ∃ t' : State, step s' = .next t' ∧ observe t' = observe t ∧ t'.ir = t.ir

/-! ## Reset, load, run, host -/

/-- R21 and R170 (at any time: the spec's decision D9): reset gives every component its value, at any time and
whatever went before; and no other move of the host leaves the halted state. The instruction register's reset value
is the model's choice (log entry 1) and is not stated here. -/
def Obligations.ResetState : Prop :=
  (∀ a : Addr, memRead State.reset a = 0x00) ∧ State.reset.acc = 0 ∧ State.reset.zf = true ∧
    State.reset.pc = 0 ∧ State.reset.halted = false ∧
    (∀ (w : Session), hostMove .reset w = .ok ⟨State.reset, false⟩) ∧
    ∀ (m : HostMove) (w w' : Session), hostMove m w = .ok w' → w.machine.halted = true →
      w'.machine.halted = false → m = .reset

/-- R172 (marked derived by the spec): with nothing loaded the machine executes CLEAR at every address for ever. -/
def Obligations.NothingLoadedRunsClears : Prop :=
  (∀ (k : Nat), (runFor k State.reset).pc.toNat = k % 32 ∧ (runFor k State.reset).acc = 0 ∧
      (runFor k State.reset).zf = true ∧ (runFor k State.reset).mem = State.reset.mem ∧
      decode (memRead (runFor k State.reset) (runFor k State.reset).pc) = .clear) ∧
    NeverHalts State.reset

/-- R174 (before the first step: the spec's decision D10, log entry 12): a load of at most 32 bytes writes byte `i`
at address `i` and nothing else; more than 32 fail; the host loads only before the first step. That the memory's
canonical form is kept is log entry 4. -/
def Obligations.LoadWritesLowAddresses : Prop :=
  (∀ (bytes : List Byte) (s : State), bytes.length > 32 → load bytes s = .error .programTooLarge) ∧
    (∀ (bytes : List Byte) (s : State), bytes.length ≤ 32 → Memory.wf s.mem = true →
      ∃ (t : State), load bytes s = .ok t ∧ t = { s with mem := t.mem } ∧ Memory.wf t.mem = true ∧
        (∀ (a : Addr) (v : Byte), bytes[a.toNat]? = some v → memRead t a = v) ∧
        ∀ a : Addr, bytes.length ≤ a.toNat → memRead t a = memRead s a) ∧
    (∀ (s : State), load [] s = .ok s) ∧
    ∀ (bytes : List Byte) (w : Session), w.started = true → hostMove (.load bytes) w = .error .alreadyStarted

/-- R175: a run is reset, load, then steps until the machine is halted; its launch state is a function of the bytes
alone, and its result the final state. That a bound outside the machine may cut a run off, which then has no result,
is R85 with the spec's decision D12 (log entry 13). -/
def Obligations.RunFromLaunchState : Prop :=
  (∀ (bytes : List Byte), bytes.length > 32 → ∀ (fuel : Nat), runProgram fuel bytes = .error .programTooLarge) ∧
    ∀ (bytes : List Byte), bytes.length ≤ 32 →
      ∃ (s : State), launch bytes = .ok s ∧ s.acc = 0 ∧ s.zf = true ∧ s.pc = 0 ∧ s.halted = false ∧
        (∀ a : Addr, memRead s a = (bytes[a.toNat]?).getD 0x00) ∧
        ∀ (fuel : Nat) (t : State), runProgram fuel bytes = .ok (some t) ↔ runFor fuel s = t ∧ t.halted = true

/-- R177 (the spec's decision D22; the model's session is log entry 12): what each move of the host does to the
machine; after the first step only reset and the machine's own steps change it. -/
def Obligations.HostMoves : Prop :=
  (∀ (w w' : Session) (m : HostMove), hostMove m w = .ok w' →
      (m = .reset ∧ w'.machine = State.reset) ∨ (∃ (k : Nat), m = .enable k ∧ w'.machine = runFor k w.machine) ∨
        ∃ (bytes : List Byte), m = .load bytes ∧ w.started = false ∧ load bytes w.machine = .ok w'.machine) ∧
    (∀ (k : Nat) (w : Session), ∃ (w' : Session), hostMove (.enable k) w = .ok w' ∧
      (w'.started = true ↔ w.started = true ∨ k ≠ 0)) ∧
    ∀ (bytes : List Byte) (w : Session), bytes.length > 32 → ∃ e : HostRefusal, hostMove (.load bytes) w = .error e

/-! ## The core as hardware -/

/-- R60 (the spec's decision D1): the table of the decoder's control outputs, row by row. -/
def Obligations.ControlOutputTable : Prop :=
  ∀ (n : Addr) (zf : Bool),
    controls (joinByte 0 0) zf = ⟨false, true, .alu, some .zero, true, false, false, .none⟩ ∧
      (n ≠ 0 → controls (joinByte 0 n) zf = ⟨true, false, .none, none, false, false, false, .none⟩) ∧
      controls (joinByte 1 n) zf = ⟨false, true, .alu, some .inc, true, false, false, .none⟩ ∧
      controls (joinByte 2 n) zf = ⟨false, true, .alu, some .add, true, false, false, .none⟩ ∧
      controls (joinByte 3 n) zf = ⟨false, true, .alu, some .dec, true, false, false, .none⟩ ∧
      controls (joinByte 4 n) zf = ⟨false, false, .none, none, false, true, false, .none⟩ ∧
      controls (joinByte 5 n) zf = ⟨false, false, .none, none, false, !zf, false, .none⟩ ∧
      controls (joinByte 6 n) zf = ⟨false, true, .mem, none, false, false, false, .read n⟩ ∧
      controls (joinByte 7 n) zf = ⟨false, false, .none, none, false, false, true, .write n⟩

/-- R60, R82, R24: the execute phase driven by the control outputs is the execute phase of the decoded instruction.
LOAD takes its byte from the port `mem_rdata`; for every other instruction it does not matter what is on that port. -/
def Obligations.ControlsImplementExecutePhase : Prop :=
  ∀ (s : State) (rdata : Byte), (∀ (n : Addr), decode s.ir = .load n → rdata = memRead s n) →
    exec (decode s.ir) s = .next (executeByControls rdata s)

/-- R84 (the spec's decision D1; the step enable is read in FETCH only, log entry 3): the transitions of the state
machine. With `rst` low: FETCH to EXECUTE with the byte on `mem_rdata` in IR when steps are enabled, FETCH to itself
when they are not, EXECUTE to HALTED on STOP and to FETCH otherwise, HALTED to itself; with `rst` high, reset. -/
def Obligations.PhaseTransitions : Prop :=
  (∀ (s : State) (v : Byte), tick ⟨false, true, v⟩ ⟨.fetch, s⟩ =
      ⟨.execute, { s with ir := v, pc := followingPc s }⟩) ∧
    (∀ (s : State) (v : Byte), tick ⟨false, false, v⟩ ⟨.fetch, s⟩ = ⟨.fetch, s⟩) ∧
    (∀ (s : State) (run : Bool) (v : Byte), s.halted = false →
      ((∃ (n : Addr), decode s.ir = .stop n) → (tick ⟨false, run, v⟩ ⟨.execute, s⟩).phase = .halted) ∧
        ((∀ (n : Addr), decode s.ir ≠ .stop n) → (tick ⟨false, run, v⟩ ⟨.execute, s⟩).phase = .fetch)) ∧
    (∀ (s : State) (run : Bool) (v : Byte), tick ⟨false, run, v⟩ ⟨.halted, s⟩ = ⟨.halted, s⟩) ∧
    ∀ (b : Block) (run : Bool) (v : Byte), tick ⟨true, run, v⟩ b = ⟨.fetch, State.reset⟩

/-- R80, R84: the two-phase hardware with its memory attached, ticked with steps enabled, does exactly the model's
steps: `2 k` ticks from an instruction boundary are a bounded run of `k` steps, for every `k`, from every state, and
whatever the lines of `mem_rdata` carry in the ticks without an access (log entry 3). -/
def Obligations.TicksImplementRuns : Prop :=
  ∀ (k : Nat) (s : State) (idles : List Byte), idles.length = 2 * k →
    ticks false true idles (atBoundary s) = atBoundary (runFor k s)

/-- R24, R42 (the spec's decision D2; no address where there is no access, log entry 3): the memory port. The fetch
phase reads at `pc`; the execute phase accesses the operand's address for LOAD and STORE and makes no access otherwise;
the memory gives the byte at the address on `mem_rdata`; `mem_we` is asserted only in the execute phase of STORE, with
the accumulator as data. -/
def Obligations.MemoryPortAccesses : Prop :=
  ∀ (s : State) (idle : Byte), (ports ⟨.fetch, s⟩).memAddr = some s.pc ∧ (ports ⟨.fetch, s⟩).memWe = false ∧
    memoryAnswer idle ⟨.fetch, s⟩ = memRead s s.pc ∧
    (ports ⟨.halted, s⟩).memAddr = none ∧ (ports ⟨.halted, s⟩).memWe = false ∧
    (∀ (n : Addr), decode s.ir = .load n →
      (ports ⟨.execute, s⟩).memAddr = some n ∧ (ports ⟨.execute, s⟩).memWe = false ∧
        memoryAnswer idle ⟨.execute, s⟩ = memRead s n) ∧
    (∀ (n : Addr), decode s.ir = .store n →
      (ports ⟨.execute, s⟩).memAddr = some n ∧ (ports ⟨.execute, s⟩).memWe = true ∧
        (ports ⟨.execute, s⟩).memWdata = s.acc) ∧
    ((∀ (n : Addr), decode s.ir ≠ .load n ∧ decode s.ir ≠ .store n) →
      (ports ⟨.execute, s⟩).memAddr = none ∧ (ports ⟨.execute, s⟩).memWe = false)

/-- R23, R24: the core meets the memory at the port only. With `rst` low and the same byte on `mem_rdata`, a tick over
any other memory does the same, and what it does to that memory is what the outputs `mem_addr`, `mem_wdata` and
`mem_we` say. -/
def Obligations.CoreMeetsMemoryAtPort : Prop :=
  ∀ (b : Block) (run : Bool) (v : Byte) (m : Memory),
    tick ⟨false, run, v⟩ ⟨b.phase, { b.state with mem := m }⟩ =
      ⟨(tick ⟨false, run, v⟩ b).phase,
        { (tick ⟨false, run, v⟩ b).state with mem := memoryAfter (ports b) m }⟩

/-! ## The assembler -/

/-- R65 and R66, with the error kinds of R71 and R72 (the name UnexpectedOperand is the spec's decision D19): the
thirteen spellings and no other word are mnemonics, each the one the table gives it, and what each mnemonic makes of no
operand and of a value below 32. -/
def Obligations.MnemonicsProduce : Prop :=
  (∀ (word : Token) (form : MnemonicForm), mnemonicOf word = some form ↔
      (word, form) ∈ [("CLEAR".toList, MnemonicForm.clear), ("STOP".toList, .stop), ("INC".toList, .inc),
        ("DEC".toList, .dec), ("ADD".toList, .add), ("LOAD".toList, .load), ("STORE".toList, .store),
        ("JMP".toList, .jump), ("JUMP".toList, .jump), ("BNZ".toList, .branch), ("BUZ".toList, .branch),
        ("BZC".toList, .branch), ("BNE".toList, .branch)]) ∧
    ∀ (v : Nat), v < 32 →
      buildInstr .clear .absent = .ok (.clear 0) ∧ buildInstr .stop .absent = .ok (.clear 1) ∧
        buildInstr .inc .absent = .ok .inc ∧ buildInstr .dec .absent = .ok .dec ∧
        (∀ form ∈ [MnemonicForm.clear, .stop, .inc, .dec],
          buildInstr form (.value v) = .error .unexpectedOperand) ∧
        (∀ form ∈ [MnemonicForm.add, .load, .store, .jump, .branch],
          buildInstr form .absent = .error .missingOperand ∧
            ∃ (i : SourceInstr) (b : Byte), buildInstr form (.value v) = .ok i ∧ encodeSource i = .ok b ∧
              b.toNat = v + (match form with
                | .add => 0x40
                | .load => 0xC0
                | .store => 0xE0
                | .jump => 0x80
                | _ => 0xA0))

/-- R69: a text of 32 or more instruction-producing lines is rejected as too long. That this comes before every
other error of the text is the model's choice, log entry 6. -/
def Obligations.LongProgramsRejected : Prop :=
  ∀ (text : List Char), (instrLines text).length ≥ 32 →
    ∃ (f : AsmFailure), assembleChars text = .error f ∧ f.error = .programTooLong

/-- R64 (which characters are whitespace: log entry 7): a line that is empty after trimming or holds only a comment
produces no instruction, wherever it stands: it changes nothing of what the text around it assembles to. -/
def Obligations.BlankLinesProduceNothing : Prop :=
  ∀ (line text : List Char) (prog : List SourceInstr), (∀ c ∈ line, c ≠ '\n') → lineFields line = [] →
    (assembleChars (line ++ '\n' :: text) = .ok prog ↔ assembleChars text = .ok prog) ∧
      ∀ before : List Char,
        (assembleChars (before ++ '\n' :: line) = .ok prog ↔ assembleChars before = .ok prog) ∧
          (assembleChars (before ++ '\n' :: line ++ '\n' :: text) = .ok prog ↔
            assembleChars (before ++ '\n' :: text) = .ok prog)

/-- R70 (the spec's decision D16) and R68: the scan pass records the instruction-producing lines of the text, the one
at position `k` as record `k`, with the label that line declares; a label's value is that position, from 0, whether it
is used before or after that line; it is at most 30; and no other label has a value. -/
def Obligations.LabelValueIsLoadAddress : Prop :=
  ∀ (text : List Char) (raws : List RawLine) (table : SymbolTable), scan text = .ok (raws, table) →
    raws.length = (instrLines text).length ∧
      (∀ (k : Nat) (raw : RawLine), raws[k]? = some raw →
        raw.index = k ∧ k ≤ 30 ∧
          ∃ (physical : Nat) (fields : List Token), (instrLines text)[k]? = some (physical, fields) ∧
            scanLine physical k fields = .ok raw ∧
            ∀ (l : Token), raw.label = some l ↔ isLabelName l = true ∧ fields.head? = some (l ++ [':'])) ∧
      ∀ (l : Token) (v : Nat), lookupSymbol l table = some v ↔
        ∃ raw : RawLine, raws[v]? = some raw ∧ raw.label = some l

/-- R71: the resolve pass on one line, its checks in their order: label lookup, range, mnemonic. A label spelled
like a mnemonic and an unparsable operand are left out (log entries 8 and 9). -/
def Obligations.ResolveChecksInOrder : Prop :=
  ∀ (table : SymbolTable) (raw : RawLine),
    (∀ (l : Token), raw.operand = some (.label l) → isMnemonic l = false → lookupSymbol l table = none →
        resolveLine table raw = .error .unknownSymbol) ∧
      (∀ v : Nat, (raw.operand = some (.literal v) ∨
          ∃ (l : Token), raw.operand = some (.label l) ∧ isMnemonic l = false ∧ lookupSymbol l table = some v) →
        (v ≥ 32 → resolveLine table raw = .error .operandOverflow) ∧
          (v < 32 → resolveLine table raw =
            match mnemonicOf raw.opcode with
            | none => .error .invalidOpcode
            | some form => buildInstr form (.value v))) ∧
      (raw.operand = none → resolveLine table raw =
        match mnemonicOf raw.opcode with
        | none => .error .invalidOpcode
        | some form => buildInstr form .absent)

/-- R57, R69, R72 and U4: whatever assembles has at most 31 instructions, always encodes, one canonical byte an
instruction, and always loads; the encoder's range check is unreachable from the assembler. -/
def Obligations.AssembledProgramsEncodeAndLoad : Prop :=
  ∀ (text : List Char) (prog : List SourceInstr), assembleChars text = .ok prog →
    prog.length ≤ 31 ∧ prog.length = (instrLines text).length ∧
      ∃ (bytes : List Byte), encodeProgram prog = .ok bytes ∧ bytes.length = prog.length ∧
        (∀ b ∈ bytes, encode (decode b) = b ∧ ((∃ (n : Addr), decode b = .stop n) → b = 0x01)) ∧
        ∃ (s : State), launch bytes = .ok s

/-- R77 with the source's worked examples S3 to S7. -/
def Obligations.WorkedAssemblies : Prop :=
  assemble "CLEAR" = .ok [.clear 0] ∧ assemble "STOP" = .ok [.clear 1] ∧
    assemble "CLEAR\nADD 15\nSTORE 0" = .ok [.clear 0, .add 15, .store 0] ∧
    encodeProgram [.clear 0, .add 15, .store 0] = .ok [0x00, 0x4F, 0xE0] ∧
    assemble "start: CLEAR\nJUMP start" = .ok [.clear 0, .jump 0] ∧
    assemble "; comment\n   \nCLEAR" = .ok [.clear 0]
end

