-- ==== Sys2Proof/Laws/Decode.lean ====
section
/-! SUPPORT. The field maps of an instruction byte are inverse to each other (30_encoding.md R51), and what the
decoder gives for each opcode. -/

namespace Sys2Proof

@[simp] theorem opcodeOf_joinByte (op : Opcode) (n : Addr) : opcodeOf (joinByte op n) = op := by
  revert op n; decide

@[simp] theorem operandOf_joinByte (op : Opcode) (n : Addr) : operandOf (joinByte op n) = n := by
  revert op n; decide

@[simp] theorem joinByte_fields (b : Byte) : joinByte (opcodeOf b) (operandOf b) = b := by
  revert b; decide

/-- The opcode field has eight values. -/
theorem opcode_cases (op : Opcode) :
    op = 0 ∨ op = 1 ∨ op = 2 ∨ op = 3 ∨ op = 4 ∨ op = 5 ∨ op = 6 ∨ op = 7 := by
  revert op; decide

/-- Every instruction the decoder gives is well formed. -/
theorem decode_wf (b : Byte) : (decode b).wf = true := by
  revert b; decide

theorem decode_joinByte_zero (n : Addr) : decode (joinByte 0 n) = if n = 0 then .clear else .stop n := by
  simp [decode]

theorem decode_joinByte_one (n : Addr) : decode (joinByte 1 n) = .inc := by simp [decode]

theorem decode_joinByte_two (n : Addr) : decode (joinByte 2 n) = .add n := by simp [decode]

theorem decode_joinByte_three (n : Addr) : decode (joinByte 3 n) = .dec := by simp [decode]

theorem decode_joinByte_four (n : Addr) : decode (joinByte 4 n) = .jmp n := by simp [decode]

theorem decode_joinByte_five (n : Addr) : decode (joinByte 5 n) = .bnz n := by simp [decode]

theorem decode_joinByte_six (n : Addr) : decode (joinByte 6 n) = .load n := by simp [decode]

theorem decode_joinByte_seven (n : Addr) : decode (joinByte 7 n) = .store n := by simp [decode]

end Sys2Proof
end

