-- ==== Sys2Proof/Laws/State.lean ====
section
/-! SUPPORT. One lemma per field per update of State, true by unfolding, for the simp set. -/

namespace Sys2Proof.Machine

variable (s : State)

@[simp] theorem setAcc_mem (v : Byte) : (setAcc s v).mem = s.mem := rfl
@[simp] theorem setAcc_acc (v : Byte) : (setAcc s v).acc = v := rfl
@[simp] theorem setAcc_zf (v : Byte) : (setAcc s v).zf = s.zf := rfl
@[simp] theorem setAcc_pc (v : Byte) : (setAcc s v).pc = s.pc := rfl
@[simp] theorem setAcc_halted (v : Byte) : (setAcc s v).halted = s.halted := rfl
@[simp] theorem setAcc_ir (v : Byte) : (setAcc s v).ir = s.ir := rfl

@[simp] theorem setZf_mem (b : Bool) : (setZf s b).mem = s.mem := rfl
@[simp] theorem setZf_acc (b : Bool) : (setZf s b).acc = s.acc := rfl
@[simp] theorem setZf_zf (b : Bool) : (setZf s b).zf = b := rfl
@[simp] theorem setZf_pc (b : Bool) : (setZf s b).pc = s.pc := rfl
@[simp] theorem setZf_halted (b : Bool) : (setZf s b).halted = s.halted := rfl
@[simp] theorem setZf_ir (b : Bool) : (setZf s b).ir = s.ir := rfl

@[simp] theorem setPc_mem (n : Addr) : (setPc s n).mem = s.mem := rfl
@[simp] theorem setPc_acc (n : Addr) : (setPc s n).acc = s.acc := rfl
@[simp] theorem setPc_zf (n : Addr) : (setPc s n).zf = s.zf := rfl
@[simp] theorem setPc_pc (n : Addr) : (setPc s n).pc = n := rfl
@[simp] theorem setPc_halted (n : Addr) : (setPc s n).halted = s.halted := rfl
@[simp] theorem setPc_ir (n : Addr) : (setPc s n).ir = s.ir := rfl

@[simp] theorem setHalted_mem (b : Bool) : (setHalted s b).mem = s.mem := rfl
@[simp] theorem setHalted_acc (b : Bool) : (setHalted s b).acc = s.acc := rfl
@[simp] theorem setHalted_zf (b : Bool) : (setHalted s b).zf = s.zf := rfl
@[simp] theorem setHalted_pc (b : Bool) : (setHalted s b).pc = s.pc := rfl
@[simp] theorem setHalted_halted (b : Bool) : (setHalted s b).halted = b := rfl
@[simp] theorem setHalted_ir (b : Bool) : (setHalted s b).ir = s.ir := rfl

@[simp] theorem setIr_mem (v : Byte) : (setIr s v).mem = s.mem := rfl
@[simp] theorem setIr_acc (v : Byte) : (setIr s v).acc = s.acc := rfl
@[simp] theorem setIr_zf (v : Byte) : (setIr s v).zf = s.zf := rfl
@[simp] theorem setIr_pc (v : Byte) : (setIr s v).pc = s.pc := rfl
@[simp] theorem setIr_halted (v : Byte) : (setIr s v).halted = s.halted := rfl
@[simp] theorem setIr_ir (v : Byte) : (setIr s v).ir = v := rfl

@[simp] theorem memWrite_mem (a : Addr) (v : Byte) : (memWrite s a v).mem = Memory.write s.mem a.toNat v := rfl
@[simp] theorem memWrite_acc (a : Addr) (v : Byte) : (memWrite s a v).acc = s.acc := rfl
@[simp] theorem memWrite_zf (a : Addr) (v : Byte) : (memWrite s a v).zf = s.zf := rfl
@[simp] theorem memWrite_pc (a : Addr) (v : Byte) : (memWrite s a v).pc = s.pc := rfl
@[simp] theorem memWrite_halted (a : Addr) (v : Byte) : (memWrite s a v).halted = s.halted := rfl
@[simp] theorem memWrite_ir (a : Addr) (v : Byte) : (memWrite s a v).ir = s.ir := rfl

@[simp] theorem latchFetched_mem (v : Byte) : (latchFetched v s).mem = s.mem := rfl
@[simp] theorem latchFetched_acc (v : Byte) : (latchFetched v s).acc = s.acc := rfl
@[simp] theorem latchFetched_zf (v : Byte) : (latchFetched v s).zf = s.zf := rfl
@[simp] theorem latchFetched_pc (v : Byte) : (latchFetched v s).pc = nextPc s.pc := rfl
@[simp] theorem latchFetched_halted (v : Byte) : (latchFetched v s).halted = s.halted := rfl
@[simp] theorem latchFetched_ir (v : Byte) : (latchFetched v s).ir = v := rfl

@[simp] theorem fetch_mem : (fetch s).mem = s.mem := rfl
@[simp] theorem fetch_acc : (fetch s).acc = s.acc := rfl
@[simp] theorem fetch_zf : (fetch s).zf = s.zf := rfl
@[simp] theorem fetch_pc : (fetch s).pc = nextPc s.pc := rfl
@[simp] theorem fetch_halted : (fetch s).halted = s.halted := rfl
@[simp] theorem fetch_ir : (fetch s).ir = memRead s s.pc := rfl

@[simp] theorem commitAlu_mem (op : AluOp) (b : Byte) : (commitAlu op b s).mem = s.mem := rfl
@[simp] theorem commitAlu_acc (op : AluOp) (b : Byte) : (commitAlu op b s).acc = alu op s.acc b := rfl
@[simp] theorem commitAlu_zf (op : AluOp) (b : Byte) : (commitAlu op b s).zf = zeroFlag (alu op s.acc b) := rfl
@[simp] theorem commitAlu_pc (op : AluOp) (b : Byte) : (commitAlu op b s).pc = s.pc := rfl
@[simp] theorem commitAlu_halted (op : AluOp) (b : Byte) : (commitAlu op b s).halted = s.halted := rfl
@[simp] theorem commitAlu_ir (op : AluOp) (b : Byte) : (commitAlu op b s).ir = s.ir := rfl

/-- Two states are equal when their six fields are. -/
theorem State.eq_of_fields {s t : State} (hm : s.mem = t.mem) (ha : s.acc = t.acc) (hz : s.zf = t.zf)
    (hp : s.pc = t.pc) (hh : s.halted = t.halted) (hi : s.ir = t.ir) : s = t := by
  cases s; cases t; simp_all

end Sys2Proof.Machine
end

