-- ==== Sys2Proof/Laws/Exec.lean ====
section
/-! SUPPORT. Each meaning answers one next state; every later proof cites these and does not unfold a meaning. -/

namespace Sys2Proof.Machine

variable (s : State) (n : Addr)

theorem exec_clear : exec .clear s = .next (commitAlu .zero 0 s) := rfl

theorem exec_stop : exec (.stop n) s = .next (setHalted s true) := rfl

theorem exec_inc : exec .inc s = .next (commitAlu .inc 0 s) := rfl

theorem exec_add : exec (.add n) s = .next (commitAlu .add (immediate n) s) := rfl

theorem exec_dec : exec .dec s = .next (commitAlu .dec 0 s) := rfl

theorem exec_jmp : exec (.jmp n) s = .next (setPc s n) := rfl

theorem exec_bnz : exec (.bnz n) s = .next (if branchTaken s.zf then setPc s n else s) := rfl

theorem exec_load : exec (.load n) s = .next (setAcc s (memRead s n)) := rfl

theorem exec_store : exec (.store n) s = .next (memWrite s n s.acc) := rfl

@[simp] theorem codeTarget_eq : codeTarget n = n := rfl

@[simp] theorem dataAddress_eq : dataAddress n = n := rfl

/-- The arithmetic unit on numbers: `+1`, `+B`, `-1` modulo 256, and 0. -/
theorem alu_zero (a b : Byte) : alu .zero a b = 0 := rfl

theorem alu_inc_toNat (a b : Byte) : (alu .inc a b).toNat = (a.toNat + 1) % 256 := by
  simp [alu, BitVec.toNat_add]

theorem alu_add_toNat (a b : Byte) : (alu .add a b).toNat = (a.toNat + b.toNat) % 256 := by
  simp [alu, BitVec.toNat_add]

theorem alu_dec_toNat (a b : Byte) : (alu .dec a b).toNat = (a.toNat + 255) % 256 := by
  simp [alu, BitVec.toNat_add]

theorem immediate_toNat : (immediate n).toNat = n.toNat := by
  have := n.isLt
  simp [immediate, zext8]
  omega

theorem zeroFlag_iff (r : Byte) : zeroFlag r = true ↔ r = 0 := by simp [zeroFlag]

theorem nextPc_toNat (pc : Addr) : (nextPc pc).toNat = (pc.toNat + 1) % 32 := by
  simp [nextPc, BitVec.toNat_add]

end Sys2Proof.Machine
end

