-- ==== Sys2Proof/Laws/Memory.lean ====
section
/-! SUPPORT. What reading and writing the memory list does, and that every operation keeps the canonical form. -/

namespace Sys2Proof.Machine.Memory

theorem wfFrom_cons {lo a : Nat} {v : Byte} {rest : Memory} :
    wfFrom lo ((a, v) :: rest) = true ↔
      lo ≤ a ∧ a < Config.memSize ∧ v ≠ Config.memReset ∧ wfFrom (a + 1) rest = true := by
  simp [wfFrom, and_assoc]

theorem wfFrom_mono {m : Memory} {lo lo' : Nat} (h : wfFrom lo m = true) (hle : lo' ≤ lo) :
    wfFrom lo' m = true := by
  cases m with
  | nil => rfl
  | cons c rest =>
    rw [wfFrom_cons] at h ⊢
    exact ⟨by omega, h.2⟩

/-- An address below every listed one reads as the reset value. -/
theorem read_below {m : Memory} {lo a : Nat} (h : wfFrom lo m = true) (ha : a < lo) :
    read m a = Config.memReset := by
  induction m generalizing lo with
  | nil => rfl
  | cons c rest ih =>
    obtain ⟨k, w⟩ := c
    rw [wfFrom_cons] at h
    have hk : k ≠ a := by omega
    simpa [read, hk] using ih h.2.2.2 (by omega)

theorem read_listCell_same {m : Memory} {lo a : Nat} {v : Byte} (h : wfFrom lo m = true) (ha : a < lo) :
    read (listCell a v m) a = v := by
  unfold listCell
  split
  · rename_i hv; rw [hv]; exact read_below h ha
  · simp [read]

theorem read_listCell_other {m : Memory} {a b : Nat} {v : Byte} (hb : b ≠ a) :
    read (listCell a v m) b = read m b := by
  unfold listCell
  split
  · rfl
  · simp [read, Ne.symm hb]

theorem listCell_wfFrom {m : Memory} {lo a : Nat} {v : Byte} (h : wfFrom (a + 1) m = true) (hlo : lo ≤ a)
    (ha : a < Config.memSize) : wfFrom lo (listCell a v m) = true := by
  unfold listCell
  split
  · exact wfFrom_mono h (by omega)
  · rename_i hv; exact wfFrom_cons.mpr ⟨hlo, ha, hv, h⟩

/-- Reading the written address gives the written value. -/
theorem read_write_at {m : Memory} {lo a : Nat} {v : Byte} (h : wfFrom lo m = true) :
    read (write m a v) a = v := by
  induction m generalizing lo with
  | nil => exact read_listCell_same (lo := a + 1) rfl (by omega)
  | cons c rest ih =>
    obtain ⟨k, w⟩ := c
    have hc := wfFrom_cons.mp h
    unfold write
    split
    · rename_i hk
      exact read_listCell_same (lo := k) (wfFrom_cons.mpr ⟨le_refl k, hc.2⟩) hk
    · split
      · rename_i hk; subst hk; exact read_listCell_same hc.2.2.2 (by omega)
      · rename_i hk; simpa [read, Ne.symm hk] using ih hc.2.2.2

/-- Reading any other address gives what it gave before; no canonical form is needed. -/
theorem read_write_off {m : Memory} {a b : Nat} {v : Byte} (hb : b ≠ a) : read (write m a v) b = read m b := by
  induction m with
  | nil => exact read_listCell_other hb
  | cons c rest ih =>
    obtain ⟨k, w⟩ := c
    unfold write
    split
    · exact read_listCell_other hb
    · split
      · rename_i hk; subst hk; rw [read_listCell_other hb]; simp [read, Ne.symm hb]
      · simp [read, ih]

theorem write_wfFrom {m : Memory} {lo a : Nat} {v : Byte} (h : wfFrom lo m = true) (hlo : lo ≤ a)
    (ha : a < Config.memSize) : wfFrom lo (write m a v) = true := by
  induction m generalizing lo with
  | nil => exact listCell_wfFrom rfl hlo ha
  | cons c rest ih =>
    obtain ⟨k, w⟩ := c
    have hc := wfFrom_cons.mp h
    unfold write
    split
    · rename_i hk
      exact listCell_wfFrom (wfFrom_cons.mpr ⟨by omega, hc.2⟩) hlo ha
    · split
      · rename_i hk; subst hk; exact listCell_wfFrom hc.2.2.2 hlo ha
      · exact wfFrom_cons.mpr ⟨hc.1, hc.2.1, hc.2.2.1, ih hc.2.2.2 (by omega)⟩

/-- A write inside the memory keeps the canonical form. -/
theorem write_wf {m : Memory} {a : Nat} {v : Byte} (h : wf m = true) (ha : a < Config.memSize) :
    wf (write m a v) = true :=
  write_wfFrom h (Nat.zero_le a) ha

/-- Writing a run of bytes inside the memory keeps the canonical form. -/
theorem writeBytes_wf {bytes : List Byte} {a : Nat} {m : Memory} (h : wf m = true)
    (ha : a + bytes.length ≤ Config.memSize) : wf (writeBytes a bytes m) = true := by
  induction bytes generalizing a m with
  | nil => exact h
  | cons v rest ih =>
    simp only [List.length_cons] at ha
    exact ih (write_wf h (by omega)) (by omega)

/-- An address below the run is not written. -/
theorem read_writeBytes_below {bytes : List Byte} {a b : Nat} {m : Memory} (hb : b < a) :
    read (writeBytes a bytes m) b = read m b := by
  induction bytes generalizing a m with
  | nil => rfl
  | cons v rest ih =>
    show read (writeBytes (a + 1) rest (write m a v)) b = _
    rw [ih (by omega), read_write_off (by omega)]

/-- An address past the run is not written. -/
theorem read_writeBytes_past {bytes : List Byte} {a b : Nat} {m : Memory} (hb : a + bytes.length ≤ b) :
    read (writeBytes a bytes m) b = read m b := by
  induction bytes generalizing a m with
  | nil => rfl
  | cons v rest ih =>
    simp only [List.length_cons] at hb
    show read (writeBytes (a + 1) rest (write m a v)) b = _
    rw [ih (by omega), read_write_off (by omega)]

/-- Byte `i` of the run stands at the run's first address plus `i`. -/
theorem read_writeBytes_at {bytes : List Byte} {a i : Nat} {v : Byte} {m : Memory} (h : wf m = true)
    (hlen : a + bytes.length ≤ Config.memSize) (hi : bytes[i]? = some v) :
    read (writeBytes a bytes m) (a + i) = v := by
  induction bytes generalizing a i m with
  | nil => simp at hi
  | cons w rest ih =>
    simp only [List.length_cons] at hlen
    show read (writeBytes (a + 1) rest (write m a w)) (a + i) = v
    cases i with
    | zero =>
      simp only [List.getElem?_cons_zero, Option.some.injEq] at hi
      rw [read_writeBytes_below (by omega), Nat.add_zero, read_write_at (lo := 0) h, hi]
    | succ j =>
      simp only [List.getElem?_cons_succ] at hi
      have := ih (a := a + 1) (m := write m a w) (write_wf h (by omega)) (by omega) hi
      rwa [show a + (j + 1) = a + 1 + j by omega]

end Sys2Proof.Machine.Memory
end

