-- ==== Sys2Proof/Laws/PerInstr.lean ====
section
/-! SUPPORT. Statements about every instruction as syntax, one lemma per constructor. -/

namespace Sys2Proof.Laws.Canonical

/-- The encoder gives a well-formed instruction a byte whose opcode-table row bears its mnemonic, and the decoder
reads that byte back as the instruction. -/
def Statement (i : Instr) : Prop :=
  i.wf = true →
    decode (encode i) = i ∧
      ∃ r ∈ opcodeTable, r.mnemonic = i.mnemonic ∧ r.accepts (encode i) = true

theorem clear : Statement .clear := by unfold Statement; decide

theorem stop (n : Addr) : Statement (.stop n) := by unfold Statement; revert n; decide

theorem inc : Statement .inc := by unfold Statement; decide

theorem add (n : Addr) : Statement (.add n) := by unfold Statement; revert n; decide

theorem dec : Statement .dec := by unfold Statement; decide

theorem jmp (n : Addr) : Statement (.jmp n) := by unfold Statement; revert n; decide

theorem bnz (n : Addr) : Statement (.bnz n) := by unfold Statement; revert n; decide

theorem load (n : Addr) : Statement (.load n) := by unfold Statement; revert n; decide

theorem store (n : Addr) : Statement (.store n) := by unfold Statement; revert n; decide

end Sys2Proof.Laws.Canonical
end

