-- ==== Sys2Proof/Laws/Step.lean ====
section
/-! SUPPORT. What one step can do, said once: the inversion lemma that invariants are derived from. -/

namespace Sys2Proof.Machine

/-- A step of a halted machine is refused, and of no other. -/
theorem step_of_halted {s : State} (h : s.halted = true) : step s = .refused .halted := by
  simp [step, h]

theorem step_of_running {s : State} (h : s.halted = false) :
    step s = exec (decode (memRead s s.pc)) (fetch s) := by
  simp [step, h]

/-- Everything the execute phase can do. -/
theorem exec_cases {i : Instr} {s t : State} (h : exec i s = .next t) :
    (∃ op b, t = commitAlu op b s ∧ (i = .clear ∧ op = .zero ∨ i = .inc ∧ op = .inc ∨ i = .dec ∧ op = .dec ∨
        ∃ n, i = .add n ∧ op = .add ∧ b = immediate n)) ∨
      (∃ n, i = .stop n ∧ t = setHalted s true) ∨
      (∃ n, i = .jmp n ∧ t = setPc s n) ∨
      (∃ n, i = .bnz n ∧ t = if s.zf then s else setPc s n) ∨
      (∃ n, i = .load n ∧ t = setAcc s (memRead s n)) ∨
      (∃ n, i = .store n ∧ t = memWrite s n s.acc) := by
  cases i with
  | clear => rw [exec_clear] at h; cases h; exact .inl ⟨.zero, 0, rfl, by simp⟩
  | stop n => rw [exec_stop] at h; cases h; exact .inr (.inl ⟨n, rfl, rfl⟩)
  | inc => rw [exec_inc] at h; cases h; exact .inl ⟨.inc, 0, rfl, by simp⟩
  | add n => rw [exec_add] at h; cases h; exact .inl ⟨.add, immediate n, rfl, by simp⟩
  | dec => rw [exec_dec] at h; cases h; exact .inl ⟨.dec, 0, rfl, by simp⟩
  | jmp n => rw [exec_jmp] at h; cases h; exact .inr (.inr (.inl ⟨n, rfl, rfl⟩))
  | bnz n =>
    rw [exec_bnz] at h
    cases h
    exact .inr (.inr (.inr (.inl ⟨n, rfl, by cases s.zf <;> rfl⟩)))
  | load n => rw [exec_load] at h; cases h; exact .inr (.inr (.inr (.inr (.inl ⟨n, rfl, rfl⟩))))
  | store n => rw [exec_store] at h; cases h; exact .inr (.inr (.inr (.inr (.inr ⟨n, rfl, rfl⟩))))

/-- A step that answers a next state is the execute phase of the byte fetched by a machine that was not halted. -/
theorem step_next {s t : State} (h : step s = .next t) :
    s.halted = false ∧ exec (decode (memRead s s.pc)) (fetch s) = .next t := by
  cases hh : s.halted with
  | true => rw [step_of_halted hh] at h; cases h
  | false => rw [step_of_running hh] at h; exact ⟨rfl, h⟩

theorem runFor_zero (s : State) : runFor 0 s = s := rfl

theorem runFor_succ_next {s t : State} (h : step s = .next t) (k : Nat) : runFor (k + 1) s = runFor k t := by
  simp [runFor, h]

end Sys2Proof.Machine
end

