-- ==== Sys2Proof/Tests/Slice0.lean ====
section
/-! SUPPORT. The model's own tests. Expected results come from spec/: the vectors of 95_test_vectors.md (named by
their ids) and the encodings of 30_encoding.md. Then one witness for each statement that has hypotheses. -/

namespace Sys2Proof.Tests

open Sys2Proof Sys2Proof.Machine Sys2Proof.Reference

/-! ## Helpers -/

/-- The next state of an outcome, if it is one. -/
def nextOf (o : Host.Outcome State Fault Refusal) : Option State :=
  match o with
  | .next t => some t
  | .fault _ => none
  | .refused _ => none

/-- The start state of a single-step vector: byte `b` at address `a`, which is `pc`, over the memory `m`. -/
def start (a : Addr) (b acc : Byte) (zf : Bool) (m : Memory := []) : State :=
  { State.reset with mem := Memory.write m a.toNat b, pc := a, acc := acc, zf := zf }

/-- The columns `acc`, `zf`, `pc`, `halted` after one step. -/
def after (s : State) : Option (Byte × Bool × Addr × Bool) :=
  (nextOf (step s)).map fun t => (t.acc, t.zf, t.pc, t.halted)

/-- One byte of memory after one step. -/
def byteAfter (s : State) (a : Addr) : Option Byte := (nextOf (step s)).map fun t => memRead t a

/-- The kind of error an assembly fails with; the line number is a free value. -/
def errorOf (r : Except AsmFailure (List SourceInstr)) : Option AsmError :=
  match r with
  | .ok _ => none
  | .error f => some f.error

/-! ## Well-formedness refuses -/

theorem test_wf_refuses_stop_zero : Instr.wf (.stop 0) = false := by decide

theorem test_inRange_refuses_32 : SourceInstr.inRange (.add 32) = false := by decide

theorem test_memory_wf_refuses :
    Memory.wf [(1, 1), (0, 1)] = false ∧ Memory.wf [(1, 1), (1, 2)] = false ∧ Memory.wf [(1, 0)] = false ∧
      Memory.wf [(32, 1)] = false ∧ Memory.wf [(0, 1), (31, 0xFF)] = true := by decide

/-! ## Decoding, words written from the opcode map (vectors E1 to E21) -/

theorem test_decode_clear : decode 0b00000000 = .clear := by decide

theorem test_decode_stop : decode 0b00000001 = .stop 1 ∧ decode 0b00010000 = .stop 16 := by decide

theorem test_decode_inc : decode 0b00100000 = .inc ∧ decode 0b00111111 = .inc := by decide

theorem test_decode_add : decode 0b01001111 = .add 15 := by decide

theorem test_decode_dec : decode 0b01100000 = .dec ∧ decode 0b01100001 = .dec := by decide

theorem test_decode_jmp : decode 0b10000011 = .jmp 3 := by decide

theorem test_decode_bnz : decode 0b10100010 = .bnz 2 := by decide

theorem test_decode_load : decode 0b11000110 = .load 6 := by decide

theorem test_decode_store : decode 0b11111111 = .store 31 := by decide

theorem test_table_word : decodeTableWord 8 0x4F = some (.add 15) ∧ decodeTableWord 16 0x4F = none := by decide

theorem test_withFetchWord_runs :
    after (State.reset.withFetchWord 8 0x4F) = some (0x0F, false, 1, false) := by decide

/-! ## Single steps -/

/-- XC1, XC2. -/
theorem test_step_clear :
    after (start 4 0x00 0x7B false) = some (0x00, true, 5, false) ∧
      after (start 31 0x00 0x00 true) = some (0x00, true, 0, false) := by decide

/-- XI5, XI7. -/
theorem test_step_inc :
    after (start 0 0x20 0xFF false) = some (0x00, true, 1, false) ∧
      after (start 31 0x25 0x05 false) = some (0x06, false, 0, false) := by decide

/-- XA2, XA4. -/
theorem test_step_add_flag :
    after (start 2 0x40 0x07 true) = some (0x07, false, 3, false) ∧
      after (start 2 0x4F 0xF1 false) = some (0x00, true, 3, false) := by decide

/-- XA9: the operand is not sign-extended. -/
theorem test_step_add_unsigned : after (start 2 0x5F 0xE0 true) = some (0xFF, false, 3, false) := by decide

/-- XD1, XD6. -/
theorem test_step_dec :
    after (start 0 0x60 0x00 true) = some (0xFF, false, 1, false) ∧
      after (start 3 0x7F 0x01 false) = some (0x00, true, 4, false) := by decide

/-- XJ1, XJ3. -/
theorem test_step_jmp :
    after (start 7 0x83 0x55 false) = some (0x55, false, 3, false) ∧
      after (start 31 0x9F 0x01 false) = some (0x01, false, 31, false) := by decide

/-- XB3, XB4: the flag decides, not the accumulator. -/
theorem test_step_bnz :
    after (start 3 0xA2 0x00 false) = some (0x00, false, 2, false) ∧
      after (start 3 0xA2 0x09 true) = some (0x09, true, 4, false) := by decide

/-- XB6. -/
theorem test_step_bnz_wraps : after (start 31 0xBF 0x00 true) = some (0x00, true, 0, false) := by decide

/-- XL1, XL3. -/
theorem test_step_load :
    after (start 0 0xC6 0x00 true [(6, 0xFE)]) = some (0xFE, true, 1, false) ∧
      after (start 5 0xC5 0x11 true) = some (0xC5, true, 6, false) := by decide

/-- XS2, XS5. -/
theorem test_step_store :
    byteAfter (start 2 0xE2 0x01 false) 2 = some 0x01 ∧
      after (start 2 0xE2 0x01 false) = some (0x01, false, 3, false) ∧
      byteAfter (start 4 0xE9 0x00 true [(9, 0x77)]) 9 = some 0x00 := by decide

/-- XH2, XH4. -/
theorem test_step_stop :
    after (start 31 0x1F 0xAA false) = some (0xAA, false, 0, true) ∧
      after (start 12 0x10 0x00 true) = some (0x00, true, 13, true) := by decide

/-! ## Host and assembler -/

/-- H6: a second load does not clear what it does not write. -/
theorem test_second_load :
    ((load [0xAA, 0xBB] State.reset).bind (load [0x01])).map (fun s => (memRead s 0, memRead s 1)) =
      .ok (0x01, 0xBB) := by decide

/-- H4. -/
theorem test_load_too_large : launch (List.replicate 33 0x00) = .error .programTooLarge := by decide

/-- S4, run. -/
theorem test_run_stop :
    (runProgram 1 [0x01]).map (Option.map observe) = .ok (some ⟨[(0, 1)], 0x00, true, 1, true⟩) := by decide

/-- A7: a true forward reference. -/
theorem test_asm_forward : assemble "JMP end\nINC\nend: STOP" = .ok [.jump 2, .inc, .clear 1] := by decide

/-- A8: the label counts instruction lines. -/
theorem test_asm_label_counts :
    assemble "; header\n\nCLEAR\n; body\nloop: DEC\nBNZ loop\nSTOP" =
      .ok [.clear 0, .dec, .branchIfNotZero 1, .clear 1] := by decide

/-- A9. -/
theorem test_asm_errors :
    errorOf (assemble "FOO") = some .invalidOpcode ∧ errorOf (assemble "clear") = some .invalidOpcode ∧
      errorOf (assemble "ADD") = some .missingOperand ∧
      errorOf (assemble "JMP nowhere") = some .unknownSymbol ∧
      errorOf (assemble "INC 3") = some .unexpectedOperand ∧
      errorOf (assemble "CLEAR 0") = some .unexpectedOperand ∧
      errorOf (assemble "ADD 1 2") = some .trailingTokens := by decide

/-- A13, A14. -/
theorem test_asm_labels_and_literals :
    errorOf (assemble "a: INC\na: DEC") = some .duplicateLabel ∧
      errorOf (assemble "ADD: INC") = some .reservedLabel ∧
      errorOf (assemble "LOAD 256") = some .missingOperand := by decide

/-- A15, A16: the order of the checks, and fail-fast on the first erroneous line. -/
theorem test_asm_order :
    errorOf (assemble "INC 40") = some .operandOverflow ∧ errorOf (assemble "FOO nowhere") = some .unknownSymbol ∧
      errorOf (assemble "FOO 40") = some .operandOverflow ∧ errorOf (assemble "STOP\nFOO") = some .invalidOpcode ∧
      errorOf (assemble "FOO\nADD 32") = some .invalidOpcode := by decide

/-! ## Witnesses: for each statement with hypotheses, a state and operands that meet them together -/

/-- A machine about to run byte `b` at address 0. -/
def holding (b : Byte) : State := start 0 b 0x05 false

/-- DecodeEncodeRoundTrips. -/
theorem witness_round_trips :
    Instr.wf (.stop 31) = true ∧ encodeSource (.add 31) = .ok 0x5F ∧ opcodeOf 0x3F = 1 ∧ operandOf 0x3F ≠ 0 ∧
      opcodeOf 0x61 = 3 ∧ operandOf 0x61 ≠ 0 := by decide

/-- SourceEncodeNeverTruncates: both sides of the boundary. -/
theorem witness_source_encode :
    (SourceInstr.add 31).operand = some 31 ∧ (31 : Byte).toNat < 32 ∧ (SourceInstr.add 32).operand = some 32 ∧
      (32 : Byte).toNat ≥ 32 := by decide

/-- SourceVariantIsAView. -/
theorem witness_source_view :
    (SourceInstr.clear 0).toInstr = some .clear ∧ (SourceInstr.clear 31).toInstr = some (.stop 31) := by decide

/-- ClearResetsAccumulator. -/
theorem witness_clear : (holding 0x00).halted = false ∧ memRead (holding 0x00) (holding 0x00).pc = 0x00 := by decide

/-- IncAddsOne: both ends of the byte range, and its third clause. -/
theorem witness_inc :
    (holding 0x20).halted = false ∧ (memRead (holding 0x20) 0).toNat = 0x20 ∧ (holding 0x3F).halted = false ∧
      (memRead (holding 0x3F) 0).toNat = 0x3F ∧ (nextOf (exec .inc (holding 0x20))).isSome = true := by decide

/-- AddAddsImmediate: both ends of the operand. -/
theorem witness_add :
    (holding 0x40).halted = false ∧ (memRead (holding 0x40) 0).toNat = 0x40 + (0 : Addr).toNat ∧
      (memRead (holding 0x5F) 0).toNat = 0x40 + (31 : Addr).toNat ∧
      (nextOf (exec (.add 31) (holding 0x5F))).isSome = true := by decide

/-- DecSubtractsOne. -/
theorem witness_dec :
    (holding 0x60).halted = false ∧ (memRead (holding 0x60) 0).toNat = 0x60 ∧
      (memRead (holding 0x7F) 0).toNat = 0x7F ∧ (nextOf (exec .dec (holding 0x60))).isSome = true := by decide

/-- JmpLoadsTarget. -/
theorem witness_jmp :
    (holding 0x80).halted = false ∧ (memRead (holding 0x80) 0).toNat = 0x80 + (0 : Addr).toNat ∧
      (memRead (holding 0x9F) 0).toNat = 0x80 + (31 : Addr).toNat := by decide

/-- BnzTestsFlag: a state with the flag false and one with it true. -/
theorem witness_bnz :
    (holding 0xA0).halted = false ∧ (memRead (holding 0xA0) 0).toNat = 0xA0 + (0 : Addr).toNat ∧
      (memRead (holding 0xBF) 0).toNat = 0xA0 + (31 : Addr).toNat ∧ (holding 0xA0).zf = false ∧
      State.reset.zf = true := by decide

/-- LoadCopiesByte. -/
theorem witness_load :
    (holding 0xC0).halted = false ∧ (memRead (holding 0xC0) 0).toNat = 0xC0 + (0 : Addr).toNat ∧
      (memRead (holding 0xDF) 0).toNat = 0xC0 + (31 : Addr).toNat := by decide

/-- StoreCopiesAccumulator. -/
theorem witness_store :
    Memory.wf (holding 0xE0).mem = true ∧ (holding 0xE0).halted = false ∧
      (memRead (holding 0xE0) 0).toNat = 0xE0 + (0 : Addr).toNat ∧ Memory.wf (holding 0xFF).mem = true ∧
      (memRead (holding 0xFF) 0).toNat = 0xE0 + (31 : Addr).toNat := by decide

/-- StopHaltsMachine: both ends of the byte range. -/
theorem witness_stop :
    (holding 0x01).halted = false ∧ (memRead (holding 0x01) 0).toNat = 0x01 ∧ (holding 0x1F).halted = false ∧
      (memRead (holding 0x1F) 0).toNat = 0x1F := by decide

/-- ArithmeticFrame, both clauses, and the last clause of ArithmeticLaws. -/
theorem witness_arithmetic :
    (∃ t, exec (.add 31) (holding 0x5F) = .next t) ∧ decode (memRead (holding 0x5F) 0) = .add 31 ∧
      ∃ t, step (holding 0x5F) = .next t := ⟨⟨_, rfl⟩, by decide, ⟨_, rfl⟩⟩

/-- NonStoringFrame, StoreFrame: each form answers a next state. -/
theorem witness_frames :
    (∃ t, exec (.jmp 31) State.reset = .next t) ∧ (∃ t, exec (.bnz 31) State.reset = .next t) ∧
      (∃ t, exec (.stop 1) State.reset = .next t) ∧ (∃ t, exec (.load 31) State.reset = .next t) ∧
      (∃ t, exec (.store 31) State.reset = .next t) ∧ (30 : Addr) ≠ dataAddress 31 :=
  ⟨⟨_, rfl⟩, ⟨_, rfl⟩, ⟨_, rfl⟩, ⟨_, rfl⟩, ⟨_, rfl⟩, by decide⟩

/-- FrameTable, AccumulatorAccessTable, FlagWriters: an instruction on each side of each test. -/
theorem witness_tables :
    (∃ t, exec .clear State.reset = .next t) ∧ (∃ t, exec (.store 0) State.reset = .next t) ∧
      writesAcc (.store 0) = false ∧ writesZf (.store 0) = false ∧ storedAddress (.store 0) ≠ some 1 ∧
      readsAcc .clear = false ∧ readsAcc (.store 0) = true ∧ writesZf .clear = true :=
  ⟨⟨_, rfl⟩, ⟨_, rfl⟩, rfl, rfl, by decide, rfl, rfl, rfl⟩

/-- FlagAgreementBrokenOnlyByLoad. -/
theorem witness_flag_agreement :
    (∀ n, Instr.clear ≠ .bnz n) ∧ (∃ t, exec .clear State.reset = .next t) ∧
      (∃ t, exec (.bnz 3) State.reset = .next t) ∧ State.reset.zf = (State.reset.acc == 0) ∧
      (∀ n, decode (memRead State.reset State.reset.pc) ≠ .load n) ∧ (∃ t, step State.reset = .next t) ∧
      writesZf (decode (memRead State.reset State.reset.pc)) = true :=
  ⟨by decide, ⟨_, rfl⟩, ⟨_, rfl⟩, rfl, by decide, ⟨_, rfl⟩, by decide⟩

/-- ProgramCounterWriters, a taken branch and a fall-through; OnlyStopEndsRun and InstructionRegisterIsInvisible,
their step clauses. -/
theorem witness_step :
    (∃ t, step (holding 0xBF) = .next t) ∧ (∃ t, step State.reset = .next t) ∧
      (∃ t, step (holding 0x1F) = .next t ∧ t.halted = true) ∧
      observe State.reset = observe { State.reset with ir := 0xFF } :=
  ⟨⟨_, rfl⟩, ⟨_, rfl⟩, ⟨_, rfl, rfl⟩, rfl⟩

/-- DataAccessesAreLoadAndStore. -/
theorem witness_data_accesses :
    (∃ t, exec .inc State.reset = .next t) ∧ (∀ n, Instr.inc ≠ .store n) ∧ ∀ n, Instr.inc ≠ .load n :=
  ⟨⟨_, rfl⟩, by decide, by decide⟩

/-- ArithmeticLaws, clause (d), at the bound. -/
theorem witness_add_add : (30 : Addr).toNat + (1 : Addr).toNat ≤ 31 := by decide

/-- ReadGivesLatestWrite, CanonicalMemoriesAreEqual, StepKeepsCanonicalMemory. -/
theorem witness_memory :
    Memory.wf (holding 0xE0).mem = true ∧ (1 : Addr) ≠ 0 ∧
      (∀ a : Addr, Memory.read (holding 0xE0).mem a.toNat = Memory.read (start 0 0xE0 0 true).mem a.toNat) ∧
      (∃ t, step (holding 0xE0) = .next t) ∧
      ∃ w', hostMove (.load [0x20]) ⟨holding 0xE0, false⟩ = .ok w' :=
  ⟨by decide, by decide, by decide, ⟨_, rfl⟩, ⟨_, rfl⟩⟩

/-- StoreIsSeenByNextFetch: a STORE to the next address; the state after it is one of its later states. -/
theorem witness_store_next :
    Memory.wf (holding 0xE1).mem = true ∧ decode (memRead (holding 0xE1) (holding 0xE1).pc) = .store 1 ∧
      (∃ t, step (holding 0xE1) = .next t ∧ memRead t 1 = 0x05 ∧ t.pc = 1 ∧ t.halted = false) ∧
      (1 : Addr) = followingPc (holding 0xE1) := ⟨by decide, by decide, ⟨_, rfl, by decide⟩, by decide⟩

/-- StepRunsDecodedInstruction, StepIsTotal, StepIsPseudocode, RunIsPseudocode. -/
theorem witness_running :
    (holding 0x4F).halted = false ∧ decode (memRead (holding 0x4F) (holding 0x4F).pc) = .add 15 ∧
      Memory.wf (holding 0x4F).mem = true ∧
      step { State.reset with halted := true } = .refused .halted := ⟨rfl, by decide, by decide, rfl⟩

/-- OnlyStopEndsRun, its run clause; BoundDoesNotMatter. -/
theorem witness_run_ends :
    (holding 0x01).halted = false ∧ (runFor 1 (holding 0x01)).halted = true ∧
      EndsIn (holding 0x01) (runFor 1 (holding 0x01)) := ⟨rfl, by decide, ⟨1, rfl, by decide⟩⟩

/-- HaltedStateIsFinal and ResetState, their host clauses. -/
theorem witness_halted :
    (∃ w', hostMove (.enable 1) ⟨{ State.reset with halted := true }, true⟩ = .ok w') ∧
      HostMove.enable 1 ≠ .reset ∧
      ∃ w', hostMove .reset ⟨{ State.reset with halted := true }, true⟩ = .ok w' ∧ w'.machine.halted = false :=
  ⟨⟨_, rfl⟩, by decide, ⟨_, rfl, rfl⟩⟩

/-- LoadWritesLowAddresses, RunFromLaunchState, HostMoves: both sides of the limit, an address inside and one past
the program. -/
theorem witness_load_limit :
    (List.replicate 33 (0x20 : Byte)).length > 32 ∧ (List.replicate 32 (0x20 : Byte)).length ≤ 32 ∧
      Memory.wf State.reset.mem = true ∧ ([0x20, 0x01] : List Byte)[(1 : Addr).toNat]? = some 0x01 ∧
      ([0x20, 0x01] : List Byte).length ≤ (2 : Addr).toNat ∧
      (∃ w', hostMove (.load [0x20, 0x01]) ⟨State.reset, false⟩ = .ok w') ∧
      (∃ t, runProgram 1 [0x01] = .ok (some t)) :=
  ⟨by decide, by decide, by decide, by decide, by decide, ⟨_, rfl⟩, ⟨_, rfl⟩⟩

/-- ControlOutputTable, ControlsImplementExecutePhase, PhaseTransitions, MemoryPortAccesses: an `IR` for each
hypothesis. -/
theorem witness_hardware :
    (31 : Addr) ≠ 0 ∧ State.reset.halted = false ∧ decode { State.reset with ir := 0x1F }.ir = .stop 31 ∧
      (∀ n, decode { State.reset with ir := 0xC6 }.ir ≠ .stop n) ∧
      decode { State.reset with ir := 0xC6 }.ir = .load 6 ∧ decode { State.reset with ir := 0xE0 }.ir = .store 0 ∧
      (∀ n, decode { State.reset with ir := 0xC6 }.ir = .load n → (0 : Byte) = memRead State.reset n) ∧
      ∀ n, decode { State.reset with ir := 0x20 }.ir ≠ .load n ∧
        decode { State.reset with ir := 0x20 }.ir ≠ .store n := by decide

/-- TicksImplementRuns: idle lines that carry anything, for two steps. -/
theorem witness_ticks : ([0x00, 0xFF, 0x55, 0x01] : List Byte).length = 2 * 2 := rfl

/-- XL1 through the port: LOAD takes the byte on `mem_rdata` in EXECUTE, as FETCH takes the instruction. -/
theorem test_port_rdata :
    (ticks false true [0xAA, 0xBB] (atBoundary (start 0 0xC6 0x00 true [(6, 0xFE)]))).state.acc = 0xFE ∧
      (tick ⟨false, true, 0x4F⟩ Block.reset).state.ir = 0x4F := by decide

/-- MnemonicsProduce, its value clause at the bound. -/
theorem witness_mnemonics : (31 : Nat) < 32 := by decide

/-- LongProgramsRejected: 31 line feeds between 32 words. -/
theorem witness_long : (instrLines (List.replicate 31 ['X', '\n']).flatten).length = 31 ∧
    (instrLines ((List.replicate 31 ['X', '\n']).flatten ++ ['X'])).length ≥ 32 := by decide

/-- BlankLinesProduceNothing: a comment line. -/
theorem witness_blank_line :
    (∀ c ∈ [' ', ';', 'x'], c ≠ '\n') ∧ lineFields [' ', ';', 'x'] = [] ∧
      assembleChars "INC".toList = .ok [.inc] := ⟨by simp, by decide, by decide⟩

/-- LabelValueIsLoadAddress and AssembledProgramsEncodeAndLoad: a text with a label that assembles. -/
theorem witness_label :
    (∃ r, scan "INC\nx: JMP x".toList = .ok r ∧ r.1[1]?.bind (·.label) = some "x".toList) ∧
      assembleChars "INC\nx: JMP x".toList = .ok [.inc, .jump 1] :=
  ⟨⟨_, rfl, by decide⟩, by decide⟩

/-- ResolveChecksInOrder: an operand of each kind, and both sides of the range. -/
theorem witness_resolve :
    isMnemonic "x".toList = false ∧ lookupSymbol "x".toList [] = none ∧
      lookupSymbol "x".toList [("x".toList, 30)] = some 30 ∧
      (⟨0, 0, none, "ADD".toList, some (.literal 31)⟩ : RawLine).operand = some (.literal 31) ∧
      (⟨0, 0, none, "ADD".toList, some (.label "x".toList)⟩ : RawLine).operand = some (.label "x".toList) ∧
      (⟨0, 0, none, "INC".toList, none⟩ : RawLine).operand = none := by decide

end Sys2Proof.Tests
end

section
/-! SUPPORT. The source's variant and the spec's instruction of one byte (00_scope.md R9, 30_encoding.md R53, R57):
every spec instruction has one source variant, the decoders and the encoders agree through it, and a source variant
stands for a well-formed instruction exactly when it is that instruction's variant. -/

namespace Sys2Proof.Machine

theorem toNat_setWidth_addr_lt (n : Addr) : (n.setWidth 8).toNat < 32 := by
  rw [BitVec.toNat_setWidth_of_le (by decide)]
  exact n.isLt

/-- Widening an operand adds no zero: `Clear(n)` is CLEAR only where the 5-bit field is 0 (R54). -/
theorem setWidth_addr_eq_zero_iff (n : Addr) : n.setWidth 8 = 0#8 ↔ n = 0#5 := by
  revert n; decide

/-- The source variant of a spec instruction (R9): CLEAR and STOP share `Clear`, every other has its own. -/
def sourceOf : Instr → SourceInstr
  | .clear => .clear 0
  | .stop n => .clear (n.setWidth 8)
  | .inc => .inc
  | .add n => .add (n.setWidth 8)
  | .dec => .dec
  | .jmp n => .jump (n.setWidth 8)
  | .bnz n => .branchIfNotZero (n.setWidth 8)
  | .load n => .load (n.setWidth 8)
  | .store n => .store (n.setWidth 8)

/-- The source's decoder reads every byte as the variant of the instruction the model's decoder reads. -/
theorem decodeSource_eq_sourceOf (b : Byte) : decodeSource b = sourceOf (decode b) := by
  rw [← joinByte_fields b]
  generalize operandOf b = n
  rcases opcode_cases (opcodeOf b) with h | h | h | h | h | h | h | h <;> rw [h]
  · rw [decode_joinByte_zero]
    by_cases hn : n = 0
    · simp [decodeSource, sourceOf, hn]
    · rw [if_neg hn]; simp [decodeSource, sourceOf]
  · rw [decode_joinByte_one]; simp [decodeSource, sourceOf]
  · rw [decode_joinByte_two]; simp [decodeSource, sourceOf]
  · rw [decode_joinByte_three]; simp [decodeSource, sourceOf]
  · rw [decode_joinByte_four]; simp [decodeSource, sourceOf]
  · rw [decode_joinByte_five]; simp [decodeSource, sourceOf]
  · rw [decode_joinByte_six]; simp [decodeSource, sourceOf]
  · rw [decode_joinByte_seven]; simp [decodeSource, sourceOf]

/-- A variant without an operand encodes with a zero field (R57). -/
theorem encodeSource_of_operand_none {i : SourceInstr} (h : i.operand = none) :
    encodeSource i = .ok (joinByte i.opcode 0) := by
  simp [encodeSource, h]

/-- A variant whose operand is a widened 5-bit field encodes with that field (R57). -/
theorem encodeSource_of_operand_addr {i : SourceInstr} {n : Addr} (h : i.operand = some (n.setWidth 8)) :
    encodeSource i = .ok (joinByte i.opcode n) := by
  simp [encodeSource, h, -BitVec.toNat_setWidth, toNat_setWidth_addr_lt]

/-- The two encoders give the same byte. -/
theorem encodeSource_sourceOf (j : Instr) : encodeSource (sourceOf j) = .ok (encode j) := by
  cases j with
  | clear => exact encodeSource_of_operand_addr (n := 0) rfl
  | inc | dec => exact encodeSource_of_operand_none rfl
  | stop n | add n | jmp n | bnz n | load n | store n => exact encodeSource_of_operand_addr rfl

theorem sourceOf_inRange (j : Instr) : (sourceOf j).inRange = true := by
  cases j with
  | clear | inc | dec => rfl
  | stop n | add n | jmp n | bnz n | load n | store n => exact decide_eq_true (toNat_setWidth_addr_lt n)

/-- The variant of a well-formed instruction stands for it; `stop 0` would share the variant of CLEAR. -/
theorem toInstr_sourceOf {j : Instr} (h : j.wf = true) : (sourceOf j).toInstr = some j := by
  unfold SourceInstr.toInstr
  rw [if_pos (sourceOf_inRange j)]
  cases j with
  | stop n =>
    have hn : n ≠ 0#5 := by simpa [Instr.wf] using h
    simp [sourceOf, setWidth_addr_eq_zero_iff, hn]
  | _ => simp [sourceOf]

theorem inRange_of_toInstr {i : SourceInstr} {j : Instr} (h : i.toInstr = some j) : i.inRange = true := by
  by_contra hr
  simp [SourceInstr.toInstr, hr] at h

/-- An operand in range is the widening of its own low five bits (R57: never a silent truncation). -/
theorem operand_setWidth_of_inRange {i : SourceInstr} {n : Byte} (hr : i.inRange = true)
    (hn : i.operand = some n) : (n.setWidth 5).setWidth 8 = n :=
  BitVec.setWidth_setWidth_eq_self (by simpa [SourceInstr.inRange, hn, BitVec.lt_def] using hr)

/-- `SourceInstr.toInstr` inverted: a variant stands for a well-formed instruction, and is its variant. -/
theorem eq_sourceOf_of_toInstr {i : SourceInstr} {j : Instr} (h : i.toInstr = some j) :
    i = sourceOf j ∧ j.wf = true := by
  have hr := inRange_of_toInstr h
  unfold SourceInstr.toInstr at h
  rw [if_pos hr, Option.some.injEq] at h
  subst h
  cases i with
  | clear n =>
    have hw := operand_setWidth_of_inRange hr rfl
    by_cases hn : n = 0#8
    · simp [hn, sourceOf, Instr.wf]
    · have hz : n.setWidth 5 ≠ 0#5 := by rwa [ne_eq, ← setWidth_addr_eq_zero_iff, hw]
      simp [hn, sourceOf, Instr.wf, hw, hz]
  | inc | dec => exact ⟨rfl, rfl⟩
  | add n | jump n | branchIfNotZero n | load n | store n =>
    exact ⟨congrArg _ (operand_setWidth_of_inRange hr rfl).symm, rfl⟩

/-- Settles O7: both clauses go through `sourceOf`, which the two decoders agree on, the two encoders agree on, and
`SourceInstr.toInstr` inverts on well-formed instructions. -/
theorem sourceVariantIsAView : Obligations.SourceVariantIsAView := by
  refine ⟨fun b => ?_, fun i j h => ?_⟩
  · rw [decodeSource_eq_sourceOf]
    exact toInstr_sourceOf (decode_wf b)
  · obtain ⟨rfl, hwf⟩ := eq_sourceOf_of_toInstr h
    exact ⟨encodeSource_sourceOf j, hwf⟩

end Sys2Proof.Machine
end

section
/-! SUPPORT. The effect of an instruction as a total function of the state: every meaning answers a next state, and
each component of that state is described once. Then the frames of 10_state.md R20 and the access tables of R12 and
R15, which are read off those lemmas. -/

namespace Sys2Proof.Machine

open Sys2Proof.Reference

/-- The state that the execute phase answers. BNZ is a load of `pc` that may load the old value. -/
def effect : Instr → State → State
  | .clear, s => commitAlu .zero 0 s
  | .stop _, s => setHalted s true
  | .inc, s => commitAlu .inc 0 s
  | .add n, s => commitAlu .add (immediate n) s
  | .dec, s => commitAlu .dec 0 s
  | .jmp n, s => setPc s n
  | .bnz n, s => setPc s (if s.zf then s.pc else n)
  | .load n, s => setAcc s (memRead s n)
  | .store n, s => memWrite s n s.acc

theorem setPc_self (s : State) : setPc s s.pc = s := rfl

/-- The execute phase answers the effect, for every instruction from every state. -/
theorem exec_eq_effect (i : Instr) (s : State) : exec i s = .next (effect i s) := by
  cases i with
  | bnz n => rw [exec_bnz]; cases hz : s.zf <;> simp [effect, branchTaken, hz, setPc_self]
  | _ => rfl

theorem effect_of_exec {i : Instr} {s t : State} (h : exec i s = .next t) : effect i s = t := by
  rw [exec_eq_effect] at h
  exact Host.Outcome.next.inj h

variable {i : Instr} {s t : State}

theorem effect_acc_of_not_writesAcc (h : writesAcc i = false) : (effect i s).acc = s.acc := by
  cases i with
  | stop n | jmp n | bnz n | store n => rfl
  | clear | inc | add n | dec | load n => cases h

theorem effect_zf_of_not_writesZf (h : writesZf i = false) : (effect i s).zf = s.zf := by
  cases i with
  | stop n | jmp n | bnz n | load n | store n => rfl
  | clear | inc | add n | dec => cases h

/-- The flag's writers give it the zero indication of the accumulator they write (R105). -/
theorem effect_zf_of_writesZf (h : writesZf i = true) : (effect i s).zf = zeroFlag (effect i s).acc := by
  cases i with
  | clear | inc | add n | dec => rfl
  | stop n | jmp n | bnz n | load n | store n => cases h

theorem effect_pc : (effect i s).pc = (takenTarget s.zf i).getD s.pc := by
  cases i with
  | bnz n => cases hz : s.zf <;> simp [effect, takenTarget, hz]
  | _ => rfl

theorem effect_mem_of_no_store (h : storedAddress i = none) : (effect i s).mem = s.mem := by
  cases i with
  | store n => cases h
  | _ => rfl

theorem memRead_memWrite_of_ne {a b : Addr} (v : Byte) (h : b ≠ a) : memRead (memWrite s a v) b = memRead s b :=
  Memory.read_write_off (by rwa [ne_eq, BitVec.toNat_inj])

theorem memRead_effect_of_not_stored {a : Addr} (h : storedAddress i ≠ some a) :
    memRead (effect i s) a = memRead s a := by
  cases i with
  | store n => exact memRead_memWrite_of_ne s.acc fun hn => h (congrArg some hn.symm)
  | _ => rfl

theorem effect_halted : (effect i s).halted = (s.halted || isStop i) := by
  cases i with
  | stop n => exact (Bool.or_true s.halted).symm
  | _ => exact (Bool.or_false s.halted).symm

theorem effect_ir : (effect i s).ir = s.ir := by
  cases i <;> rfl

/-- An instruction that does not read the accumulator has the same effect over another one. -/
theorem effect_setAcc (h : readsAcc i = false) (v : Byte) :
    effect i (setAcc s v) = setAcc (effect i s) (if writesAcc i then (effect i s).acc else v) := by
  cases i with
  | inc | add n | dec | store n => cases h
  | clear | stop n | jmp n | bnz n | load n => rfl

/-- An instruction other than BNZ has the same effect whatever the flag holds. -/
theorem effect_setZf (h : ∀ n, i ≠ .bnz n) (b : Bool) :
    effect i (setZf s b) = setZf (effect i s) (if writesZf i then (effect i s).zf else b) := by
  cases i with
  | bnz n => exact absurd rfl (h n)
  | _ => rfl

/-- Settles O20: each component of the effect, by its own lemma. -/
theorem frameTable : Obligations.FrameTable := by
  intro i s t h
  obtain rfl := effect_of_exec h
  exact ⟨effect_acc_of_not_writesAcc, effect_zf_of_not_writesZf, effect_pc,
    fun _ => memRead_effect_of_not_stored, effect_halted, effect_ir⟩

/-- Settles O18: the frame table's rows for the forms that store nothing, with the whole memory unchanged. -/
theorem nonStoringFrame : Obligations.NonStoringFrame := by
  refine ⟨fun i s t hi h => ?_, fun n s t h => ?_, fun n s t h => ?_⟩ <;> obtain rfl := effect_of_exec h
  · obtain ⟨n, rfl⟩ | ⟨n, rfl⟩ := hi <;> exact ⟨rfl, rfl, rfl, rfl, rfl, fun _ => rfl⟩
  · exact ⟨rfl, rfl, rfl, rfl, rfl, fun _ => rfl⟩
  · exact ⟨rfl, rfl, rfl, rfl, rfl, fun _ => rfl⟩

/-- Settles O19: STORE is one memory write, at the address it computes. -/
theorem storeFrame : Obligations.StoreFrame := by
  intro n s t h
  obtain rfl := effect_of_exec h
  refine ⟨rfl, rfl, rfl, rfl, rfl, ?_⟩
  rintro target rfl a ha
  exact memRead_memWrite_of_ne s.acc ha

/-- Settles O31: the reset memory lists no byte. -/
theorem resetMemoryIsCanonical : Obligations.ResetMemoryIsCanonical := rfl

/-- Every operation of the arithmetic unit but `zero` tells accumulators apart. -/
theorem alu_inj {op : AluOp} (hop : op ≠ .zero) {a a' b : Byte} (h : alu op a b = alu op a' b) : a = a' := by
  cases op with
  | zero => exact absurd rfl hop
  | inc | add | dec => exact (BitVec.add_left_inj _).mp h

/-- A write into a canonical memory tells the written bytes apart. -/
theorem Memory.write_inj {m : Memory} {a : Nat} {v w : Byte} (hm : wf m = true) (h : write m a v = write m a w) :
    v = w := by
  rw [← read_write_at (a := a) (v := v) hm, h, read_write_at hm]

/-- An instruction that reads the accumulator has different effects from reset with accumulator 0 and 1. -/
theorem effect_depends_on_acc (h : readsAcc i = true) :
    (effect i State.reset).acc ≠ (effect i (setAcc State.reset 1)).acc ∧ writesAcc i = true ∨
      (effect i State.reset).mem ≠ (effect i (setAcc State.reset 1)).mem := by
  have h01 : (0 : Byte) ≠ 1 := by decide
  cases i with
  | clear | stop n | jmp n | bnz n | load n => cases h
  | inc => exact .inl ⟨h01 ∘ alu_inj (op := .inc) (b := 0) (by decide), rfl⟩
  | add n => exact .inl ⟨h01 ∘ alu_inj (op := .add) (b := immediate n) (by decide), rfl⟩
  | dec => exact .inl ⟨h01 ∘ alu_inj (op := .dec) (b := 0) (by decide), rfl⟩
  | store n => exact .inr fun he => h01 (Memory.write_inj resetMemoryIsCanonical he)

/-- Settles O21: non-readers by `effect_setAcc`, readers by `effect_depends_on_acc`. -/
theorem accumulatorAccessTable : Obligations.AccumulatorAccessTable := by
  refine ⟨fun i s t h => ?_, fun i hr => ?_⟩
  · obtain rfl := effect_of_exec h
    refine ⟨effect_acc_of_not_writesAcc, fun hr v => ?_⟩
    rw [exec_eq_effect]
    exact congrArg _ (effect_setAcc hr v)
  · exact ⟨State.reset, _, _, 1, exec_eq_effect _ _, exec_eq_effect _ _, effect_depends_on_acc hr⟩

/-- Beside the flag's writers only LOAD writes the accumulator. -/
theorem not_writesAcc_of_not_load (hz : writesZf i = false) (hl : ∀ n, i ≠ .load n) : writesAcc i = false := by
  cases i with
  | clear | inc | add n | dec => cases hz
  | load n => exact absurd rfl (hl n)
  | stop n | jmp n | bnz n | store n => rfl

/-- The agreement of flag and accumulator (R15) is kept by every instruction but LOAD. -/
theorem effect_keeps_agreement (hs : s.zf = zeroFlag s.acc) (hl : ∀ n, i ≠ .load n) :
    (effect i s).zf = zeroFlag (effect i s).acc := by
  cases hz : writesZf i with
  | true => exact effect_zf_of_writesZf hz
  | false => rw [effect_zf_of_not_writesZf hz, effect_acc_of_not_writesAcc (not_writesAcc_of_not_load hz hl), hs]

/-- A step is the effect of the byte at `pc` in the state the fetch phase leaves. -/
theorem effect_of_step (h : step s = .next t) : effect (decode (memRead s s.pc)) (fetch s) = t :=
  effect_of_exec (step_next h).2

/-- Settles O23: the step clauses hold of the effect, and the fetch phase touches neither flag nor accumulator. The
broken agreement is LOAD 0 from reset with accumulator 5 and the flag false: the byte 0 loaded leaves the flag. -/
theorem flagAgreementBrokenOnlyByLoad : Obligations.FlagAgreementBrokenOnlyByLoad := by
  refine ⟨fun i s t b hi h => ?_, fun n s t h => ?_, rfl, fun s t hs hl h => ?_, fun s t hz h => ?_, ?_⟩
  · obtain rfl := effect_of_exec h
    rw [exec_eq_effect]
    exact congrArg _ (effect_setZf hi b)
  · obtain rfl := effect_of_exec h
    cases hz : s.zf <;> simp [effect, hz]
  · obtain rfl := effect_of_step h
    exact effect_keeps_agreement (s := fetch s) hs hl
  · obtain rfl := effect_of_step h
    exact effect_zf_of_writesZf hz
  · exact ⟨{ State.reset with acc := 5, zf := false }, _, 0, rfl, rfl, by decide⟩

end Sys2Proof.Machine
end

section
/-! SUPPORT. The canonical form of memory (log entry 4): it determines the list, and every step, run and host move
keeps it. Then the instruction register, which the fetch phase overwrites before anything reads it (10_state.md R18). -/

namespace Sys2Proof.Machine

/-- No address outside the memory is listed. -/
theorem Memory.read_outside {m : Memory} {lo a : Nat} (h : wfFrom lo m = true) (ha : Config.memSize ≤ a) :
    read m a = Config.memReset := by
  induction m generalizing lo with
  | nil => rfl
  | cons c rest ih =>
    obtain ⟨k, w⟩ := c
    obtain ⟨-, hk, -, hrest⟩ := wfFrom_cons.mp h
    simpa [read, show k ≠ a by omega] using ih hrest

/-- An address that reads as anything but the reset value is not below the listed ones. -/
theorem Memory.le_of_read_ne_reset {m : Memory} {lo a : Nat} (h : wfFrom lo m = true)
    (ha : read m a ≠ Config.memReset) : lo ≤ a :=
  Nat.le_of_not_lt fun hlt => ha (read_below h hlt)

theorem Memory.read_cons_self (k : Nat) (w : Byte) (rest : Memory) : read ((k, w) :: rest) k = w := by
  simp [read]

theorem Memory.read_cons_of_ne {k a : Nat} (w : Byte) (rest : Memory) (h : k ≠ a) :
    read ((k, w) :: rest) a = read rest a := by
  simp [read, h]

/-- Canonical memories that read alike everywhere are equal: the first listed address of each is listed in the other,
so the heads are one cell, and the rests read alike. -/
theorem Memory.eq_of_read_eq {m m' : Memory} {lo lo' : Nat} (h : wfFrom lo m = true) (h' : wfFrom lo' m' = true)
    (hread : ∀ a, read m a = read m' a) : m = m' := by
  induction m generalizing m' lo lo' with
  | nil =>
    cases m' with
    | nil => rfl
    | cons c rest =>
      obtain ⟨-, -, hw, -⟩ := wfFrom_cons.mp h'
      exact absurd ((read_cons_self ..).symm.trans (hread c.1).symm) hw
  | cons c rest ih =>
    obtain ⟨k, w⟩ := c
    obtain ⟨-, hk, hw, hrest⟩ := wfFrom_cons.mp h
    cases m' with
    | nil => exact absurd ((read_cons_self ..).symm.trans (hread k)) hw
    | cons c' rest' =>
      obtain ⟨k', w'⟩ := c'
      obtain ⟨-, hk', hw', hrest'⟩ := wfFrom_cons.mp h'
      have hle : k' ≤ k := le_of_read_ne_reset (wfFrom_cons.mpr ⟨le_refl k', hk', hw', hrest'⟩)
        (by rwa [← hread, read_cons_self])
      have hge : k ≤ k' := le_of_read_ne_reset (wfFrom_cons.mpr ⟨le_refl k, hk, hw, hrest⟩)
        (by rwa [hread, read_cons_self])
      obtain rfl : k = k' := by omega
      obtain rfl : w = w' := by simpa [read_cons_self] using hread k
      have hreads : ∀ a, read rest a = read rest' a := by
        intro a
        by_cases ha : k = a
        · rw [read_below hrest (by omega), read_below hrest' (by omega)]
        · simpa [read_cons_of_ne, ha] using hread a
      rw [ih hrest hrest' hreads]

/-- Settles O29: past the 32 addresses both memories read as the reset value, so they read alike everywhere. -/
theorem canonicalMemoriesAreEqual : Obligations.CanonicalMemoriesAreEqual := by
  intro m m' h h' hread
  refine Memory.eq_of_read_eq h h' fun a => ?_
  by_cases ha : a < Config.memSize
  · have haddr : (BitVec.ofNat 5 a).toNat = a := by simpa [Config.memSize] using ha
    simpa only [haddr] using hread (BitVec.ofNat 5 a)
  · rw [Memory.read_outside h (by omega), Memory.read_outside h' (by omega)]

/-- Only STORE changes the memory, at a 5-bit address. -/
theorem effect_keeps_wf {i : Instr} {s : State} (h : Memory.wf s.mem = true) : Memory.wf (effect i s).mem = true := by
  cases i with
  | store n => exact Memory.write_wf h n.isLt
  | _ => exact h

theorem step_keeps_wf {s t : State} (h : Memory.wf s.mem = true) (hst : step s = .next t) :
    Memory.wf t.mem = true := by
  obtain rfl := effect_of_step hst
  exact effect_keeps_wf (s := fetch s) h

/-- A halted machine takes no step, however many are enabled (R142). -/
theorem runFor_of_halted {s : State} (h : s.halted = true) (k : Nat) : runFor k s = s := by
  cases k with
  | zero => rfl
  | succ k => simp [runFor, step_of_halted h]

/-- A machine that is not halted steps. -/
theorem exists_step_of_running {s : State} (h : s.halted = false) : ∃ t, step s = .next t :=
  ⟨_, (step_of_running h).trans (exec_eq_effect _ _)⟩

/-- What every step keeps, every bounded run keeps. -/
theorem runFor_keeps {P : State → Prop} (hstep : ∀ s t, P s → step s = .next t → P t) (k : Nat) {s : State}
    (h : P s) : P (runFor k s) := by
  induction k generalizing s with
  | zero => exact h
  | succ k ih =>
    cases hh : s.halted with
    | true => rwa [runFor_of_halted hh]
    | false =>
      obtain ⟨t, ht⟩ := exists_step_of_running hh
      rw [runFor_succ_next ht]
      exact ih (hstep s t h ht)

theorem runFor_keeps_wf (k : Nat) {s : State} (h : Memory.wf s.mem = true) : Memory.wf (runFor k s).mem = true :=
  runFor_keeps (P := fun s => Memory.wf s.mem = true) (fun _ _ => step_keeps_wf) k h

/-- A load that is accepted writes its bytes from address 0 upward, and they fit. -/
theorem load_ok {bytes : List Byte} {s t : State} (h : load bytes s = .ok t) :
    bytes.length ≤ Config.memSize ∧ t = { s with mem := writeBytes 0 bytes s.mem } := by
  unfold load at h
  split at h
  · cases h
  · next hlen => cases h; exact ⟨Nat.le_of_not_lt hlen, rfl⟩

theorem load_keeps_wf {bytes : List Byte} {s t : State} (h : Memory.wf s.mem = true) (hl : load bytes s = .ok t) :
    Memory.wf t.mem = true := by
  obtain ⟨hlen, rfl⟩ := load_ok hl
  exact Memory.writeBytes_wf h (by omega)

/-- A program the host is allowed to present is loaded into a machine that has not started. -/
theorem hostMove_load_ok {bytes : List Byte} {w w' : Session} (h : hostMove (.load bytes) w = .ok w') :
    w.started = false ∧ load bytes w.machine = .ok w'.machine := by
  unfold hostMove at h
  cases hs : w.started with
  | true => simp [hs] at h
  | false =>
    cases hl : load bytes w.machine with
    | error e => simp [hs, hl] at h
    | ok s =>
      obtain rfl : ⟨s, false⟩ = w' := by simpa [hs, hl] using h
      exact ⟨rfl, rfl⟩

theorem hostMove_keeps_wf {m : HostMove} {w w' : Session} (h : Memory.wf w.machine.mem = true)
    (hm : hostMove m w = .ok w') : Memory.wf w'.machine.mem = true := by
  cases m with
  | reset => cases hm; exact resetMemoryIsCanonical
  | load bytes =>
    obtain ⟨-, hload⟩ := hostMove_load_ok hm
    exact load_keeps_wf h hload
  | enable k => cases hm; exact runFor_keeps_wf k h

/-- Settles O30: the write of a STORE and the writes of a load stay inside the memory; runs by induction. -/
theorem stepKeepsCanonicalMemory : Obligations.StepKeepsCanonicalMemory :=
  ⟨fun _ _ => step_keeps_wf, fun k _ => runFor_keeps_wf k, fun _ _ _ => hostMove_keeps_wf⟩

/-- States the host sees as equal are one state but for the instruction register. -/
theorem eq_setIr_of_observe_eq {s s' : State} (h : observe s = observe s') : s' = setIr s s'.ir := by
  obtain ⟨hm, ha, hz, hp, hh⟩ := Observation.mk.inj h
  exact State.eq_of_fields hm.symm ha.symm hz.symm hp.symm hh.symm rfl

/-- The fetch phase overwrites the instruction register before the execute phase reads it. -/
theorem step_setIr (s : State) (v : Byte) : step (setIr s v) = step s := rfl

/-- Settles O42: the two states answer one and the same next state; a run that takes no step leaves both. -/
theorem instructionRegisterIsInvisible : Obligations.InstructionRegisterIsInvisible := by
  intro s s' h
  have hstep : step s' = step s := by rw [eq_setIr_of_observe_eq h, step_setIr]
  refine ⟨fun k => ?_, fun t ht => ⟨t, hstep.trans ht, rfl, rfl⟩⟩
  cases hh : s.halted with
  | true =>
    have hh' : s'.halted = true := (congrArg Observation.halted h).symm.trans hh
    rwa [runFor_of_halted hh, runFor_of_halted hh']
  | false =>
    cases k with
    | zero => exact h
    | succ k =>
      obtain ⟨t, ht⟩ := exists_step_of_running hh
      rw [runFor_succ_next ht, runFor_succ_next (hstep.trans ht)]

end Sys2Proof.Machine
end

section
/-! SUPPORT. The decoder's control outputs as a function of the decoded instruction (30_encoding.md R60), and the
memory port that they drive (10_state.md R24). -/

namespace Sys2Proof.Machine

/-- The control outputs of each instruction (R60). -/
def controlsOf (zf : Bool) : Instr → Controls
  | .clear => aluControls .zero
  | .stop _ => { idleControls with haltSet := true }
  | .inc => aluControls .inc
  | .add _ => aluControls .add
  | .dec => aluControls .dec
  | .jmp _ => { idleControls with pcLoad := true }
  | .bnz _ => { idleControls with pcLoad := branchTaken zf }
  | .load n => { idleControls with accWe := true, accSrc := .mem, dataAccess := .read n }
  | .store n => { idleControls with memWe := true, dataAccess := .write n }

/-- The outputs that the hardware decodes from a byte are those of the instruction that the byte is. -/
theorem controls_eq_controlsOf (ir : Byte) (zf : Bool) : controls ir zf = controlsOf zf (decode ir) := by
  rw [← joinByte_fields ir]
  generalize operandOf ir = n
  rcases opcode_cases (opcodeOf ir) with h | h | h | h | h | h | h | h <;> rw [h]
  · rw [decode_joinByte_zero]
    by_cases hn : n = 0
    · simp [controls, controlsOf, selectsStop, hn]
    · have hsel : selectsStop n = true := by simpa [selectsStop] using hn
      rw [if_neg hn]; simp [controls, controlsOf, hsel]
  · rw [decode_joinByte_one]; simp [controls, controlsOf]
  · rw [decode_joinByte_two]; simp [controls, controlsOf]
  · rw [decode_joinByte_three]; simp [controls, controlsOf]
  · rw [decode_joinByte_four]; simp [controls, controlsOf]
  · rw [decode_joinByte_five]; simp [controls, controlsOf]
  · rw [decode_joinByte_six]; simp [controls, controlsOf]
  · rw [decode_joinByte_seven]; simp [controls, controlsOf]

/-- In EXECUTE the port's address is that of the instruction's data access. -/
theorem ports_execute_memAddr (s : State) :
    (ports ⟨.execute, s⟩).memAddr = (controlsOf s.zf (decode s.ir)).dataAccess.addr := by
  rw [← controls_eq_controlsOf]; rfl

/-- In EXECUTE the port's write enable is the instruction's. -/
theorem ports_execute_memWe (s : State) :
    (ports ⟨.execute, s⟩).memWe = (controlsOf s.zf (decode s.ir)).memWe := by
  rw [← controls_eq_controlsOf]; rfl

/-- Where the port reads at an address, the memory answers with the byte there. -/
theorem memoryAnswer_of_memAddr {b : Block} {a : Addr} (h : (ports b).memAddr = some a) (idle : Byte) :
    memoryAnswer idle b = memRead b.state a := by
  have hp : portAddr b = some a := h
  simp [memoryAnswer, hp]

/-- Settles O52: FETCH and HALTED by what the port is there, EXECUTE by the decoded instruction. -/
theorem memoryPortAccesses : Obligations.MemoryPortAccesses := by
  intro s idle
  refine ⟨rfl, rfl, rfl, rfl, rfl, fun n h => ?_, fun n h => ?_, fun h => ?_⟩
  · have haddr : (ports ⟨.execute, s⟩).memAddr = some n := by rw [ports_execute_memAddr, h]; rfl
    exact ⟨haddr, by rw [ports_execute_memWe, h]; rfl, memoryAnswer_of_memAddr haddr idle⟩
  · exact ⟨by rw [ports_execute_memAddr, h]; rfl, by rw [ports_execute_memWe, h]; rfl, rfl⟩
  · rw [ports_execute_memAddr, ports_execute_memWe]
    cases hi : decode s.ir with
    | load n => exact absurd hi (h n).1
    | store n => exact absurd hi (h n).2
    | _ => exact ⟨rfl, rfl⟩

/-- What the execute phase makes of a memory is what its outputs at the port say. -/
theorem memNext_eq_memoryAfter (s : State) (m : Memory) :
    memNext (controls s.ir s.zf) { s with mem := m } = memoryAfter (ports ⟨.execute, s⟩) m := by
  cases ha : (controls s.ir s.zf).dataAccess.addr <;> simp [memNext, memoryAfter, ports, portAddr, ha]

/-- The execute phase over another memory differs in the memory alone. -/
theorem executeByControls_over_memory (v : Byte) (s : State) (m : Memory) :
    executeByControls v { s with mem := m } =
      { executeByControls v s with mem := memoryAfter (ports ⟨.execute, s⟩) m } :=
  State.eq_of_fields (memNext_eq_memoryAfter s m) rfl rfl rfl rfl rfl

/-- Outside EXECUTE the port writes nothing. -/
theorem memoryAfter_of_not_execute {b : Block} (h : b.phase ≠ .execute) (m : Memory) :
    memoryAfter (ports b) m = m := by
  have hwe : (ports b).memWe = false := by simp [ports, h]
  cases ha : (ports b).memAddr <;> simp [memoryAfter, ha, hwe]

/-- Settles O53: a phase that is not EXECUTE keeps the memory and does not look at it; EXECUTE differs in it alone. -/
theorem coreMeetsMemoryAtPort : Obligations.CoreMeetsMemoryAtPort := by
  intro ⟨phase, s⟩ run v m
  cases phase with
  | fetch => rw [memoryAfter_of_not_execute (by simp)]; cases run <;> rfl
  | halted => rw [memoryAfter_of_not_execute (by simp)]; rfl
  | execute => exact congrArg atBoundary (executeByControls_over_memory v s m)

end Sys2Proof.Machine
end

section
/-! SUPPORT. A write is seen at once: by the next read of its address (20_memory.md R31, R32) and by the next fetch
from it (40_fetch_execute.md R81, 20_memory.md R40). -/

namespace Sys2Proof.Machine

open Sys2Proof.Reference

theorem memRead_memWrite_same {s : State} (h : Memory.wf s.mem = true) (a : Addr) (v : Byte) :
    memRead (memWrite s a v) a = v :=
  Memory.read_write_at h

theorem memWrite_keeps_wf {s : State} (h : Memory.wf s.mem = true) (a : Addr) (v : Byte) :
    Memory.wf (memWrite s a v).mem = true :=
  Memory.write_wf h a.isLt

/-- Settles O28: the four clauses are the laws of one write; the frame of the other components is the model's own. -/
theorem readGivesLatestWrite : Obligations.ReadGivesLatestWrite := fun _ a v h =>
  ⟨memRead_memWrite_same h a v, fun _ => memRead_memWrite_of_ne v, rfl, memWrite_keeps_wf h a v⟩

/-- The address after `pc`, taken modulo 32, is what the 5-bit increment gives (R83). -/
theorem followingPc_eq_nextPc (s : State) : followingPc s = nextPc s.pc :=
  BitVec.eq_of_toNat_eq (by simp [followingPc, nextPc_toNat])

/-- A running machine executes the byte that stands at `pc`, decoded, in the state the fetch phase leaves. -/
theorem step_of_memRead_pc {s : State} {b : Byte} (hh : s.halted = false) (hb : memRead s s.pc = b) :
    step s = exec (decode b) { s with ir := b, pc := followingPc s } := by
  rw [step_of_running hh, followingPc_eq_nextPc, ← hb]
  rfl

/-- A step that runs STORE is one memory write in the state the fetch phase leaves. -/
theorem step_store_next {s t : State} {n : Addr} (hd : decode (memRead s s.pc) = .store n) (h : step s = .next t) :
    t = memWrite (fetch s) n s.acc := by
  rw [← effect_of_step h, hd]
  rfl

/-- Settles O32: the STORE's write is read back at its address, and a step runs whatever byte is read at `pc`. The
very next step is the case where the later state is the one the STORE leaves. -/
theorem storeIsSeenByNextFetch : Obligations.StoreIsSeenByNextFetch := by
  intro s t n hwf hd hst
  have hrunning : s.halted = false := (step_next hst).1
  obtain rfl := step_store_next hd hst
  have hstored : memRead (memWrite (fetch s) n s.acc) n = s.acc := memRead_memWrite_same (s := fetch s) hwf n s.acc
  have hpc : (memWrite (fetch s) n s.acc).pc = followingPc s := (followingPc_eq_nextPc s).symm
  refine ⟨hstored, rfl, hpc, fun hn => ?_, fun u hu hupc hrun => ?_⟩
  · exact step_of_memRead_pc hrunning (by rw [hpc, ← hn, hstored])
  · exact step_of_memRead_pc hrun (by rw [hupc, hu, hstored])

end Sys2Proof.Machine
end

section
/-! SUPPORT. The encoding (30_encoding.md R51 to R59): the fields of a byte as numbers, the opcode map and its table,
and both round trips of decode and encode. -/

namespace Sys2Proof

theorem opcodeOf_toNat (b : Byte) : (opcodeOf b).toNat = b.toNat / 32 := by
  have hb := b.isLt
  simp [opcodeOf, Nat.shiftRight_eq_div_pow]
  omega

theorem operandOf_toNat (b : Byte) : (operandOf b).toNat = b.toNat % 32 := by
  simp [operandOf]

theorem joinByte_toNat (op : Opcode) (n : Addr) : (joinByte op n).toNat = op.toNat * 32 + n.toNat := by
  have h := Nat.div_add_mod (joinByte op n).toNat 32
  rw [← opcodeOf_toNat, ← operandOf_toNat, opcodeOf_joinByte, operandOf_joinByte] at h
  omega

/-- Settles O1: both maps evaluated on the bytes of the source. -/
theorem workedEncodings : Obligations.WorkedEncodings :=
  ⟨rfl, rfl, rfl, rfl, rfl, rfl, rfl, rfl⟩

/-- Settles O2: the fields as numbers, and the laws that the field maps are inverse. -/
theorem fieldMapsAreInverse : Obligations.FieldMapsAreInverse :=
  ⟨fun b => ⟨opcodeOf_toNat b, operandOf_toNat b, joinByte_fields b⟩,
    fun op n => ⟨joinByte_toNat op n, opcodeOf_joinByte op n, operandOf_joinByte op n⟩⟩

/-- Settles O3: one law of the decoder an opcode. -/
theorem opcodeMapInOrder : Obligations.OpcodeMapInOrder := fun n =>
  ⟨decode_joinByte_zero n, decode_joinByte_one n, decode_joinByte_two n, decode_joinByte_three n,
    decode_joinByte_four n, decode_joinByte_five n, decode_joinByte_six n, decode_joinByte_seven n, rfl, rfl⟩

/-- Every instruction has a row of the table with its mnemonic. -/
theorem exists_row_of_mnemonic (i : Instr) : ∃ r ∈ opcodeTable, r.mnemonic = i.mnemonic := by
  cases i <;> simp [opcodeTable, Instr.mnemonic]

/-- The rows of the table have different mnemonics. -/
theorem row_eq_of_mnemonic_eq :
    ∀ r ∈ opcodeTable, ∀ r' ∈ opcodeTable, r'.mnemonic = r.mnemonic → r' = r := by
  decide

/-- A row matches (D21) exactly the bytes that decode to an instruction with its mnemonic. -/
theorem accepts_iff_mnemonic :
    ∀ r ∈ opcodeTable, ∀ b, r.accepts b = true ↔ r.mnemonic = (decode b).mnemonic := by
  decide

/-- Settles O4: the row is the one with the decoded instruction's mnemonic. -/
theorem everyByteHasOneRow : Obligations.EveryByteHasOneRow := by
  intro b
  obtain ⟨r, hr, hm⟩ := exists_row_of_mnemonic (decode b)
  refine ⟨decode_wf b, r, hr, (accepts_iff_mnemonic r hr b).mpr hm, hm, fun r' hr' hacc => ?_⟩
  exact row_eq_of_mnemonic_eq r hr r' hr' (((accepts_iff_mnemonic r' hr' b).mp hacc).trans hm.symm)

/-- The decoder inverts the encoder on well-formed instructions. -/
theorem decode_encode {i : Instr} (h : i.wf = true) : decode (encode i) = i := by
  cases i with
  | clear => exact (Laws.Canonical.clear h).1
  | stop n => exact (Laws.Canonical.stop n h).1
  | inc => exact (Laws.Canonical.inc h).1
  | add n => exact (Laws.Canonical.add n h).1
  | dec => exact (Laws.Canonical.dec h).1
  | jmp n => exact (Laws.Canonical.jmp n h).1
  | bnz n => exact (Laws.Canonical.bnz n h).1
  | load n => exact (Laws.Canonical.load n h).1
  | store n => exact (Laws.Canonical.store n h).1

/-- The operand field that the encoder writes for the instruction of a byte: INC and DEC have none (R57). -/
def canonicalOperand (op : Opcode) (n : Addr) : Addr := if op = 1 ∨ op = 3 then 0 else n

theorem canonicalOperand_of_ignored {op : Opcode} {n : Addr} (h : op = 1 ∨ op = 3) : canonicalOperand op n = 0 :=
  if_pos h

theorem canonicalOperand_of_used {op : Opcode} {n : Addr} (h : ¬(op = 1 ∨ op = 3)) : canonicalOperand op n = n :=
  if_neg h

/-- Encoding a decoded byte keeps its opcode and makes its operand field canonical. -/
theorem encode_decode_joinByte (op : Opcode) (n : Addr) :
    encode (decode (joinByte op n)) = joinByte op (canonicalOperand op n) := by
  rcases opcode_cases op with rfl | rfl | rfl | rfl | rfl | rfl | rfl | rfl
  · rw [decode_joinByte_zero]
    by_cases hn : n = 0
    · rw [if_pos hn, hn]; rfl
    · rw [if_neg hn]; rfl
  · rw [decode_joinByte_one]; rfl
  · rw [decode_joinByte_two]; rfl
  · rw [decode_joinByte_three]; rfl
  · rw [decode_joinByte_four]; rfl
  · rw [decode_joinByte_five]; rfl
  · rw [decode_joinByte_six]; rfl
  · rw [decode_joinByte_seven]; rfl

theorem encode_decode (b : Byte) :
    encode (decode b) = joinByte (opcodeOf b) (canonicalOperand (opcodeOf b) (operandOf b)) := by
  rw [← encode_decode_joinByte, joinByte_fields]

namespace Machine

/-- The source's encoder gives a byte it has decoded what the spec's encoder gives it. -/
theorem encodeSource_decodeSource (b : Byte) : encodeSource (decodeSource b) = .ok (encode (decode b)) := by
  rw [decodeSource_eq_sourceOf, encodeSource_sourceOf]

/-- An operand of 32 or more fails (R57). -/
theorem encodeSource_of_operand_ge {i : SourceInstr} {n : Byte} (hi : i.operand = some n) (hn : 32 ≤ n.toNat) :
    encodeSource i = .error .operandOutOfRange := by
  simp [encodeSource, hi, Nat.not_lt.mpr hn]

/-- An operand below 32 goes into the operand field whole (R57). -/
theorem encodeSource_of_operand_lt {i : SourceInstr} {n : Byte} (hi : i.operand = some n) (hn : n.toNat < 32) :
    encodeSource i = .ok (joinByte i.opcode (n.setWidth 5)) := by
  simp [encodeSource, hi, hn]

/-- What encodes is in range. -/
theorem inRange_of_encodeSource_ok {i : SourceInstr} {b : Byte} (h : encodeSource i = .ok b) : i.inRange = true := by
  cases hi : i.operand with
  | none => simp [SourceInstr.inRange, hi]
  | some n =>
    by_contra hr
    have hn : 32 ≤ n.toNat := by simpa [SourceInstr.inRange, hi] using hr
    rw [encodeSource_of_operand_ge hi hn] at h
    cases h

/-- What encodes is the variant of a well-formed instruction, and its byte is that instruction's. -/
theorem exists_sourceOf_of_encodeSource_ok {i : SourceInstr} {b : Byte} (h : encodeSource i = .ok b) :
    ∃ j : Instr, i = sourceOf j ∧ j.wf = true ∧ b = encode j := by
  have hj : ∃ j, i.toInstr = some j := by simp [SourceInstr.toInstr, inRange_of_encodeSource_ok h]
  obtain ⟨j, hj⟩ := hj
  obtain ⟨rfl, hwf⟩ := eq_sourceOf_of_toInstr hj
  rw [encodeSource_sourceOf] at h
  exact ⟨j, rfl, hwf, (Except.ok.inj h).symm⟩

/-- The source's decoder inverts its encoder. -/
theorem decodeSource_of_encodeSource_ok {i : SourceInstr} {b : Byte} (h : encodeSource i = .ok b) :
    decodeSource b = i := by
  obtain ⟨j, rfl, hwf, rfl⟩ := exists_sourceOf_of_encodeSource_ok h
  rw [decodeSource_eq_sourceOf, decode_encode hwf]

/-- A byte is its opcode with a zero operand field exactly when its operand field is 0. -/
theorem joinByte_opcodeOf_zero_iff (b : Byte) : joinByte (opcodeOf b) 0 = b ↔ operandOf b = 0 := by
  refine ⟨fun h => ?_, fun h => ?_⟩
  · rw [← h, operandOf_joinByte]
  · rw [← h, joinByte_fields]

/-- Settles O5: both encoders give a decoded byte's opcode with its canonical operand field, which is another field
exactly for INC and DEC with a non-zero one. -/
theorem decodeEncodeRoundTrips : Obligations.DecodeEncodeRoundTrips := by
  refine ⟨fun _ => decode_encode, fun _ _ => decodeSource_of_encodeSource_ok, fun b => ?_⟩
  rw [encodeSource_decodeSource, encode_decode]
  by_cases hop : opcodeOf b = 1 ∨ opcodeOf b = 3
  · rw [canonicalOperand_of_ignored hop]
    refine ⟨?_, fun ⟨_, hn⟩ => ⟨mt (joinByte_opcodeOf_zero_iff b).mp hn, rfl, rfl⟩⟩
    by_cases hn : operandOf b = 0
    · rw [(joinByte_opcodeOf_zero_iff b).mpr hn]
      exact .inl ⟨rfl, rfl⟩
    · exact .inr ⟨hop, hn⟩
  · rw [canonicalOperand_of_used hop, joinByte_fields]
    exact ⟨.inl ⟨rfl, rfl⟩, fun ⟨h, _⟩ => absurd h hop⟩

theorem decodeSource_joinByte_opcode (op : Opcode) (n : Addr) : (decodeSource (joinByte op n)).opcode = op := by
  rcases opcode_cases op with rfl | rfl | rfl | rfl | rfl | rfl | rfl | rfl <;> simp [decodeSource, SourceInstr.opcode]

theorem decodeSource_joinByte_operand (op : Opcode) (n : Addr) :
    (decodeSource (joinByte op n)).operand = if op = 1 ∨ op = 3 then none else some (n.setWidth 8) := by
  rcases opcode_cases op with rfl | rfl | rfl | rfl | rfl | rfl | rfl | rfl <;>
    simp [decodeSource, SourceInstr.operand]

/-- Settles O6: the encoder on each side of 32, and the decoder on the fields of a byte. -/
theorem sourceEncodeNeverTruncates : Obligations.SourceEncodeNeverTruncates := by
  refine ⟨fun i n hi => ⟨encodeSource_of_operand_ge hi, fun hn => ?_⟩, rfl, rfl, fun op n => ?_⟩
  · refine ⟨_, encodeSource_of_operand_lt hi hn, ?_⟩
    rw [joinByte_toNat, BitVec.toNat_setWidth, Nat.mod_eq_of_lt hn]
  · refine ⟨decodeSource_joinByte_opcode op n, ?_⟩
    rw [decodeSource_joinByte_operand, BitVec.ofNat_toNat]

end Machine
end Sys2Proof
end

section
/-! SUPPORT. The control outputs (30_encoding.md R60), and that the execute phase they drive is the effect of the
decoded instruction. -/

namespace Sys2Proof.Machine

/-- Settles O48: the outputs of the instruction that the byte of each row decodes to. -/
theorem controlOutputTable : Obligations.ControlOutputTable := by
  intro n zf
  simp only [controls_eq_controlsOf, decode_joinByte_zero, decode_joinByte_one, decode_joinByte_two,
    decode_joinByte_three, decode_joinByte_four, decode_joinByte_five, decode_joinByte_six, decode_joinByte_seven]
  exact ⟨rfl, fun hn => by rw [if_neg hn]; rfl, rfl, rfl, rfl, rfl, rfl, rfl, rfl⟩

/-- The operand field of the instructions that use its value in the execute phase. -/
def usedOperand : Instr → Option Addr
  | .add n | .jmp n | .bnz n | .load n | .store n => some n
  | .clear | .stop _ | .inc | .dec => none

/-- A decoded instruction's operand is the operand field of its byte. -/
theorem operandOf_of_usedOperand {b : Byte} {n : Addr} (h : usedOperand (decode b) = some n) : operandOf b = n := by
  rw [← joinByte_fields b] at h
  generalize opcodeOf b = op at h
  rcases opcode_cases op with rfl | rfl | rfl | rfl | rfl | rfl | rfl | rfl
  · rw [decode_joinByte_zero] at h
    split at h <;> cases h
  · rw [decode_joinByte_one] at h; cases h
  · rw [decode_joinByte_two] at h; exact Option.some.inj h
  · rw [decode_joinByte_three] at h; cases h
  · rw [decode_joinByte_four] at h; exact Option.some.inj h
  · rw [decode_joinByte_five] at h; exact Option.some.inj h
  · rw [decode_joinByte_six] at h; exact Option.some.inj h
  · rw [decode_joinByte_seven] at h; exact Option.some.inj h

/-- The state that the outputs `c` give, with `n` in the operand field and `rdata` on `mem_rdata`. -/
def driven (c : Controls) (rdata : Byte) (s : State) : State where
  mem := memNext c s
  acc := accNext c rdata s
  zf := zfNext c s
  pc := if c.pcLoad then operandOf s.ir else s.pc
  halted := s.halted || c.haltSet
  ir := s.ir

theorem executeByControls_eq_driven (rdata : Byte) (s : State) :
    executeByControls rdata s = driven (controlsOf s.zf (decode s.ir)) rdata s := by
  rw [← controls_eq_controlsOf]; rfl

/-- The outputs of an instruction drive its effect. -/
theorem driven_controlsOf {i : Instr} {rdata : Byte} {s : State}
    (hn : ∀ n, usedOperand i = some n → operandOf s.ir = n) (hr : ∀ n, i = .load n → rdata = memRead s n) :
    driven (controlsOf s.zf i) rdata s = effect i s := by
  cases i with
  | clear | inc | dec => exact State.eq_of_fields rfl rfl rfl rfl (Bool.or_false _) rfl
  | stop n => exact State.eq_of_fields rfl rfl rfl rfl (Bool.or_true _) rfl
  | add n | jmp n | store n =>
    obtain rfl := hn _ rfl
    exact State.eq_of_fields rfl rfl rfl rfl (Bool.or_false _) rfl
  | bnz n =>
    obtain rfl := hn n rfl
    have hpc : (driven (controlsOf s.zf (.bnz (operandOf s.ir))) rdata s).pc =
        (effect (.bnz (operandOf s.ir)) s).pc := by
      cases hz : s.zf <;> simp [driven, controlsOf, effect, branchTaken, hz]
    exact State.eq_of_fields rfl rfl rfl hpc (Bool.or_false _) rfl
  | load n => exact State.eq_of_fields rfl (hr n rfl) rfl rfl (Bool.or_false _) rfl

/-- Settles O49: the outputs decoded from `IR` are those of the decoded instruction, and drive its effect. -/
theorem controlsImplementExecutePhase : Obligations.ControlsImplementExecutePhase := by
  intro s rdata hr
  rw [exec_eq_effect, executeByControls_eq_driven, driven_controlsOf (fun _ => operandOf_of_usedOperand) hr]

end Sys2Proof.Machine
end

section
/-! SUPPORT. The assembler's mnemonics (30_encoding.md R65, R66): the words of the table, and what a mnemonic makes of
an operand in range. -/

namespace Sys2Proof.Machine

/-- In a table without a repeated name, the words looked up with success are the names, each with its own form. -/
theorem lookupMnemonic_eq_some_iff {table : List (String × MnemonicForm)} (hnd : (table.map Prod.fst).Nodup)
    {t : Token} {form : MnemonicForm} :
    lookupMnemonic t table = some form ↔ (t, form) ∈ table.map fun e => (e.1.toList, e.2) := by
  induction table with
  | nil => simp [lookupMnemonic]
  | cons e rest ih =>
    obtain ⟨name, f⟩ := e
    obtain ⟨hfresh, hrest⟩ := List.nodup_cons.mp hnd
    rw [List.map_cons, List.mem_cons, ← ih hrest]
    by_cases ht : name.toList = t
    · have hnot : lookupMnemonic t rest ≠ some form := by
        rw [ne_eq, ih hrest, List.mem_map]
        rintro ⟨⟨name', f'⟩, hmem, heq⟩
        obtain ⟨hname, -⟩ := Prod.mk.inj heq
        obtain rfl : name' = name := String.toList_injective (hname.trans ht.symm)
        exact hfresh (List.mem_map.mpr ⟨_, hmem, rfl⟩)
      simp [lookupMnemonic, ht, hnot, eq_comm]
    · simp [lookupMnemonic, ht, Ne.symm ht]

theorem mnemonicTable_nodup : (mnemonicTable.map Prod.fst).Nodup := by decide

theorem mnemonicOf_eq_some_iff {word : Token} {form : MnemonicForm} :
    mnemonicOf word = some form ↔ (word, form) ∈ mnemonicTable.map fun e => (e.1.toList, e.2) :=
  lookupMnemonic_eq_some_iff mnemonicTable_nodup

/-- An operand in range as a byte is the widening of a 5-bit field. -/
theorem ofNat_eq_setWidth_of_lt {v : Nat} (hv : v < 32) : BitVec.ofNat 8 v = (BitVec.ofNat 5 v).setWidth 8 :=
  BitVec.eq_of_toNat_eq (by simp; omega)

/-- An operand in range encodes without failure, and the byte is the opcode's plus the operand. -/
theorem encodeSource_of_value {i : SourceInstr} {v : Nat} (hi : i.operand = some (BitVec.ofNat 8 v)) (hv : v < 32) :
    encodeSource i = .ok (joinByte i.opcode (BitVec.ofNat 5 v)) :=
  encodeSource_of_operand_addr (hi.trans (congrArg some (ofNat_eq_setWidth_of_lt hv)))

theorem joinByte_value_toNat (op : Opcode) {v : Nat} (hv : v < 32) :
    (joinByte op (BitVec.ofNat 5 v)).toNat = v + op.toNat * 32 := by
  rw [joinByte_toNat, BitVec.toNat_ofNat, Nat.mod_eq_of_lt hv, Nat.add_comm]

/-- Settles O54: the table has no repeated word; each mnemonic is one row of `buildInstr`. -/
theorem mnemonicsProduce : Obligations.MnemonicsProduce := by
  refine ⟨fun word form => mnemonicOf_eq_some_iff, fun v hv => ?_⟩
  refine ⟨rfl, rfl, rfl, rfl, fun form hf => ?_, fun form hf => ?_⟩
  · cases form with
    | clear | stop | inc | dec => rfl
    | add | load | store | jump | branch => simp at hf
  · cases form with
    | clear | stop | inc | dec => simp at hf
    | add | load | store | jump | branch =>
      exact ⟨rfl, _, _, rfl, encodeSource_of_value rfl hv, joinByte_value_toNat _ hv⟩

end Sys2Proof.Machine
end

section
/-! SUPPORT. The resolve pass on one line and on all of them (30_encoding.md R71, R73): its three steps, and that
whatever it makes is the variant of a well-formed instruction, with STOP 1 as its only STOP (R57, R65). -/

namespace Sys2Proof.Machine

theorem checkRange_of_ge {v : Nat} (h : 32 ≤ v) : checkRange v = .error .operandOverflow := if_pos h

theorem checkRange_of_lt {v : Nat} (h : v < 32) : checkRange v = .ok (.value v) := if_neg (Nat.not_le.mpr h)

theorem resolveOperand_label_unknown {table : SymbolTable} {l : Token} (hm : isMnemonic l = false)
    (hl : lookupSymbol l table = none) : resolveOperand table (some (.label l)) = .error .unknownSymbol := by
  simp [resolveOperand, hm, hl]

theorem resolveOperand_label_declared {table : SymbolTable} {l : Token} {v : Nat} (hm : isMnemonic l = false)
    (hl : lookupSymbol l table = some v) : resolveOperand table (some (.label l)) = checkRange v := by
  simp [resolveOperand, hm, hl]

section ResolveLine

variable {table : SymbolTable} {raw : RawLine} {r : Resolved}

theorem resolveLine_of_operand_error {e : AsmError} (h : resolveOperand table raw.operand = .error e) :
    resolveLine table raw = .error e := by
  simp [resolveLine, h]

theorem resolveLine_of_no_mnemonic (h : resolveOperand table raw.operand = .ok r)
    (hm : mnemonicOf raw.opcode = none) : resolveLine table raw = .error .invalidOpcode := by
  simp [resolveLine, h, hm]

theorem resolveLine_of_mnemonic {form : MnemonicForm} (h : resolveOperand table raw.operand = .ok r)
    (hm : mnemonicOf raw.opcode = some form) : resolveLine table raw = buildInstr form r := by
  simp [resolveLine, h, hm]

/-- A line that the resolve pass accepts has an operand it accepts and a mnemonic, which made the instruction. -/
theorem resolveLine_ok {i : SourceInstr} (h : resolveLine table raw = .ok i) :
    ∃ r form, resolveOperand table raw.operand = .ok r ∧ mnemonicOf raw.opcode = some form ∧
      buildInstr form r = .ok i := by
  cases hr : resolveOperand table raw.operand with
  | error e => rw [resolveLine_of_operand_error hr] at h; cases h
  | ok r =>
    cases hm : mnemonicOf raw.opcode with
    | none => rw [resolveLine_of_no_mnemonic hr hm] at h; cases h
    | some form => exact ⟨r, form, rfl, rfl, (resolveLine_of_mnemonic hr hm).symm.trans h⟩

end ResolveLine

/-- Settles O58: the operand's two checks come first, and their errors win; then the mnemonic decides. -/
theorem resolveChecksInOrder : Obligations.ResolveChecksInOrder := by
  intro table raw
  refine ⟨fun l ho hm hl => ?_, fun v ho => ?_, fun ho => ?_⟩
  · exact resolveLine_of_operand_error (by rw [ho, resolveOperand_label_unknown hm hl])
  · have hcheck : resolveOperand table raw.operand = checkRange v := by
      obtain ho | ⟨l, ho, hm, hl⟩ := ho
      · rw [ho]; rfl
      · rw [ho, resolveOperand_label_declared hm hl]
    refine ⟨fun hv => ?_, fun hv => ?_⟩
    · exact resolveLine_of_operand_error (hcheck.trans (checkRange_of_ge hv))
    · have hr := hcheck.trans (checkRange_of_lt hv)
      cases hm : mnemonicOf raw.opcode with
      | none => exact resolveLine_of_no_mnemonic hr hm
      | some form => exact resolveLine_of_mnemonic hr hm
  · have hr : resolveOperand table raw.operand = .ok .absent := by rw [ho]; rfl
    cases hm : mnemonicOf raw.opcode with
    | none => exact resolveLine_of_no_mnemonic hr hm
    | some form => exact resolveLine_of_mnemonic hr hm

theorem value_lt_of_checkRange_ok {v w : Nat} (h : checkRange v = .ok (.value w)) : w < 32 := by
  by_cases hv : v < 32
  · rw [checkRange_of_lt hv] at h
    cases h
    exact hv
  · rw [checkRange_of_ge (Nat.le_of_not_lt hv)] at h
    cases h

/-- A value that the operand's checks let through is in range. -/
theorem value_lt_of_resolveOperand_ok {table : SymbolTable} {o : Option Operand} {v : Nat}
    (h : resolveOperand table o = .ok (.value v)) : v < 32 := by
  match o with
  | none | some .unparsable => cases h
  | some (.literal w) => exact value_lt_of_checkRange_ok h
  | some (.label l) =>
    cases hm : isMnemonic l with
    | true => simp [resolveOperand, hm] at h
    | false =>
      cases hl : lookupSymbol l table with
      | none => rw [resolveOperand_label_unknown hm hl] at h; cases h
      | some w => rw [resolveOperand_label_declared hm hl] at h; exact value_lt_of_checkRange_ok h

theorem withoutOperand_ok {i k : SourceInstr} {r : Resolved} (h : withoutOperand i r = .ok k) : k = i := by
  cases r with
  | absent => cases h; rfl
  | value v | unparsable => cases h

theorem withOperand_ok {make : Byte → SourceInstr} {i : SourceInstr} {r : Resolved} (h : withOperand make r = .ok i) :
    ∃ v, r = .value v ∧ i = make (BitVec.ofNat 8 v) := by
  cases r with
  | value v => cases h; exact ⟨v, rfl, rfl⟩
  | absent | unparsable => cases h

/-- What the assembler makes: the variant of a well-formed instruction that, where it is a STOP, is STOP 1 (R65). -/
def IsAssembled (i : SourceInstr) : Prop :=
  ∃ j : Instr, i = sourceOf j ∧ j.wf = true ∧ ∀ n, j = .stop n → n = 1

/-- An operand in range makes an assembled instruction of every opcode but 0, whose mnemonics take no operand. -/
theorem isAssembled_of_value {i : SourceInstr} {v : Nat} (hi : i.operand = some (BitVec.ofNat 8 v)) (hv : v < 32)
    (hop : i.opcode ≠ 0) : IsAssembled i := by
  obtain ⟨j, rfl, hwf, -⟩ := exists_sourceOf_of_encodeSource_ok (encodeSource_of_value hi hv)
  exact ⟨j, rfl, hwf, fun n hn => absurd (hn ▸ rfl) hop⟩

theorem isAssembled_of_buildInstr_ok {form : MnemonicForm} {r : Resolved} {i : SourceInstr}
    (h : buildInstr form r = .ok i) (hr : ∀ v, r = .value v → v < 32) : IsAssembled i := by
  cases form with
  | clear => exact ⟨.clear, withoutOperand_ok h, rfl, nofun⟩
  | stop => exact ⟨.stop 1, withoutOperand_ok h, rfl, fun _ hn => (Instr.stop.inj hn).symm⟩
  | inc => exact ⟨.inc, withoutOperand_ok h, rfl, nofun⟩
  | dec => exact ⟨.dec, withoutOperand_ok h, rfl, nofun⟩
  | add | load | store | jump | branch =>
    obtain ⟨v, hv, rfl⟩ := withOperand_ok h
    exact isAssembled_of_value rfl (hr v hv) (by simp [SourceInstr.opcode])

theorem isAssembled_of_resolveLine_ok {table : SymbolTable} {raw : RawLine} {i : SourceInstr}
    (h : resolveLine table raw = .ok i) : IsAssembled i := by
  obtain ⟨r, form, hr, -, hb⟩ := resolveLine_ok h
  exact isAssembled_of_buildInstr_ok hb fun v hv => value_lt_of_resolveOperand_ok (hv ▸ hr)

/-- The resolve pass succeeds exactly when it succeeds on every record, and gives the instructions in order. -/
theorem resolveAll_ok_iff {table : SymbolTable} {raws : List RawLine} {prog : List SourceInstr} :
    resolveAll table raws = .ok prog ↔ raws.map (resolveLine table) = prog.map .ok := by
  induction raws generalizing prog with
  | nil => simp [resolveAll, eq_comm]
  | cons raw rest ih =>
    cases hi : resolveLine table raw with
    | error e => cases prog <;> simp [resolveAll, hi]
    | ok i => cases prog <;> cases hrest : resolveAll table rest <;> simp [resolveAll, hi, hrest, ← ih]

end Sys2Proof.Machine
end

section
/-! SUPPORT. The assembler's scan pass (30_encoding.md R62 to R64, R68 to R70): the lines of a text, the record and the
label of a line, the symbol table, and that a blank line changes nothing. -/

namespace Sys2Proof.Machine

/-! ## Lines -/

theorem splitLines_ne_nil (text : List Char) : splitLines text ≠ [] := by
  cases text with
  | nil => simp [splitLines]
  | cons c rest =>
    unfold splitLines
    split
    · simp
    · split <;> simp

/-- A line feed separates the lines before it from the lines after it. -/
theorem splitLines_append_newline (before text : List Char) :
    splitLines (before ++ '\n' :: text) = splitLines before ++ splitLines text := by
  induction before with
  | nil => simp [splitLines]
  | cons c rest ih =>
    by_cases hc : c = '\n'
    · simp [splitLines, hc, ih]
    · cases hr : splitLines rest with
      | nil => exact absurd hr (splitLines_ne_nil rest)
      | cons l ls => simp [splitLines, hc, ih, hr]

theorem splitLines_of_no_newline {line : List Char} (h : ∀ c ∈ line, c ≠ '\n') : splitLines line = [line] := by
  induction line with
  | nil => rfl
  | cons c rest ih =>
    obtain ⟨hc, hrest⟩ := List.forall_mem_cons.mp h
    simp [splitLines, hc, ih hrest]

/-- The fields of the instruction-producing lines, without their positions in the text. -/
def instrFields (lines : List (List Char)) : List (List Token) := (lines.map lineFields).filter (· ≠ [])

theorem instrFields_append (lines lines' : List (List Char)) :
    instrFields (lines ++ lines') = instrFields lines ++ instrFields lines' := by
  simp [instrFields]

theorem instrFields_blank {line : List Char} (h : lineFields line = []) : instrFields [line] = [] := by
  simp [instrFields, h]

theorem instrLinesFrom_map_snd (physical : Nat) (lines : List (List Char)) :
    (instrLinesFrom physical lines).map Prod.snd = instrFields lines := by
  induction lines generalizing physical with
  | nil => rfl
  | cons line rest ih =>
    have hrest := ih (physical + 1)
    by_cases hl : lineFields line = [] <;> simpa [instrLinesFrom, instrFields, hl] using hrest

/-! ## One line -/

/-- The record of a line: the label it declares, its mnemonic (empty where there is none), its operand (R68). -/
def lineRecord (physical index : Nat) (fields : List Token) : RawLine where
  physical := physical
  index := index
  label := (splitLabel fields).1
  opcode := (splitLabel fields).2.head?.getD []
  operand := (splitLabel fields).2[1]?.map parseOperand

/-- A line is recorded, or refused for more than two fields after its label. -/
theorem scanLine_eq (physical index : Nat) (fields : List Token) :
    scanLine physical index fields =
      if (splitLabel fields).2.length ≤ 2 then .ok (lineRecord physical index fields)
      else .error .trailingTokens := by
  unfold scanLine lineRecord
  rcases (splitLabel fields).2 with _ | ⟨m, _ | ⟨o, _ | ⟨x, rest⟩⟩⟩ <;> simp

theorem scanLine_ok_iff {physical index : Nat} {fields : List Token} {raw : RawLine} :
    scanLine physical index fields = .ok raw ↔
      (splitLabel fields).2.length ≤ 2 ∧ raw = lineRecord physical index fields := by
  rw [scanLine_eq]
  split
  · next hfew => simp [hfew, eq_comm]
  · next hmany => simp [hmany]

theorem declaredLabel_eq_some_iff {t l : Token} :
    declaredLabel t = some l ↔ isLabelName l = true ∧ t = l ++ [':'] := by
  refine ⟨fun h => ?_, fun ⟨hname, ht⟩ => by simp [declaredLabel, ht, hname]⟩
  unfold declaredLabel at h
  split at h
  · next hc =>
    cases h
    obtain ⟨hlast, hname⟩ : t.getLast? = some ':' ∧ isLabelName t.dropLast = true := by simpa using hc
    exact ⟨hname, (List.dropLast_append_getLast? ':' hlast).symm⟩
  · cases h

/-- A line's label is the name that its first field declares (R76). -/
theorem splitLabel_fst_eq_some_iff {fields : List Token} {l : Token} :
    (splitLabel fields).1 = some l ↔ isLabelName l = true ∧ fields.head? = some (l ++ [':']) := by
  cases fields with
  | nil => simp [splitLabel]
  | cons t rest =>
    rw [List.head?_cons, Option.some.injEq, ← declaredLabel_eq_some_iff]
    cases hd : declaredLabel t <;> simp [splitLabel, hd]

/-! ## The symbol table -/

/-- A line's label that is accepted is new, and takes the line's index (R74). -/
theorem lookupSymbol_of_declareLabel_ok {label : Option Token} {index : Nat} {table table' : SymbolTable}
    (h : declareLabel label index table = .ok table') {l : Token} {v : Nat} :
    lookupSymbol l table' = some v ↔ lookupSymbol l table = some v ∨ label = some l ∧ v = index := by
  cases label with
  | none => cases h; simp
  | some l' =>
    cases hm : isMnemonic l' with
    | true => simp [declareLabel, hm] at h
    | false =>
      cases hl : lookupSymbol l' table with
      | some w => simp [declareLabel, hm, hl] at h
      | none =>
        obtain rfl : (l', index) :: table = table' := by simpa [declareLabel, hm, hl] using h
        by_cases heq : l' = l
        · subst heq; simp [lookupSymbol, hl, eq_comm]
        · simp [lookupSymbol, heq]

/-! ## The pass -/

theorem scanFrom_cons_ok_iff {index physical : Nat} {table final : SymbolTable} {fields : List Token}
    {rest : List (Nat × List Token)} {raws : List RawLine} :
    scanFrom index table ((physical, fields) :: rest) = .ok (raws, final) ↔
      ∃ raw table' raws', scanLine physical index fields = .ok raw ∧
        declareLabel raw.label index table = .ok table' ∧ scanFrom (index + 1) table' rest = .ok (raws', final) ∧
        raws = raw :: raws' := by
  cases hs : scanLine physical index fields with
  | error e => simp [scanFrom, hs]
  | ok raw =>
    cases hd : declareLabel raw.label index table with
    | error e => simp [scanFrom, hs, hd]
    | ok table' =>
      cases hr : scanFrom (index + 1) table' rest with
      | error f => simp [scanFrom, hs, hd, hr]
      | ok r => obtain ⟨raws', t⟩ := r; simp [scanFrom, hs, hd, hr, eq_comm, and_comm]

/-- The pass records every line it is given. -/
theorem length_of_scanFrom_ok {index : Nat} {table final : SymbolTable} {lines : List (Nat × List Token)}
    {raws : List RawLine} (h : scanFrom index table lines = .ok (raws, final)) : raws.length = lines.length := by
  induction lines generalizing index table raws with
  | nil => cases h; rfl
  | cons line rest ih =>
    obtain ⟨raw, table', raws', -, -, hr, rfl⟩ := scanFrom_cons_ok_iff.mp h
    rw [List.length_cons, List.length_cons, ih hr]

/-- Record `k` is what the scan of one line makes of line `k`. -/
theorem scanLine_of_scanFrom_ok {index : Nat} {table final : SymbolTable} {lines : List (Nat × List Token)}
    {raws : List RawLine} (h : scanFrom index table lines = .ok (raws, final)) {k : Nat} {raw : RawLine}
    (hk : raws[k]? = some raw) :
    ∃ physical fields, lines[k]? = some (physical, fields) ∧ scanLine physical (index + k) fields = .ok raw := by
  induction lines generalizing index table raws k with
  | nil => cases h; simp at hk
  | cons line rest ih =>
    obtain ⟨raw', table', raws', hs, -, hr, rfl⟩ := scanFrom_cons_ok_iff.mp h
    cases k with
    | zero => cases hk; exact ⟨line.1, line.2, rfl, hs⟩
    | succ k =>
      rw [show index + (k + 1) = index + 1 + k by omega]
      exact ih hr hk

/-- A label's value is the index of the record that carries it, unless the table had it before. -/
theorem lookupSymbol_of_scanFrom_ok {index : Nat} {table final : SymbolTable} {lines : List (Nat × List Token)}
    {raws : List RawLine} (h : scanFrom index table lines = .ok (raws, final)) {l : Token} {v : Nat} :
    lookupSymbol l final = some v ↔ lookupSymbol l table = some v ∨
      ∃ k raw, raws[k]? = some raw ∧ raw.label = some l ∧ v = index + k := by
  induction lines generalizing index table raws with
  | nil => cases h; simp
  | cons line rest ih =>
    obtain ⟨raw, table', raws', -, hd, hr, rfl⟩ := scanFrom_cons_ok_iff.mp h
    rw [ih hr, lookupSymbol_of_declareLabel_ok hd, or_assoc]
    refine or_congr_right (Iff.trans ?_ Nat.or_exists_add_one)
    simp [Nat.add_assoc, Nat.add_comm 1]

theorem scan_of_long {text : List Char} (h : 32 ≤ (instrLines text).length) :
    ∃ f, scan text = .error f ∧ f.error = .programTooLong := by
  have hline : (instrLines text)[Config.asmLimit - 1]? = some (instrLines text)[31] := List.getElem?_eq_getElem h
  exact ⟨_, by rw [scan, hline], rfl⟩

theorem scan_ok_iff {text : List Char} {r : List RawLine × SymbolTable} :
    scan text = .ok r ↔ (instrLines text).length ≤ 31 ∧ scanFrom 0 [] (instrLines text) = .ok r := by
  by_cases hlen : (instrLines text).length ≤ 31
  · have hline : (instrLines text)[Config.asmLimit - 1]? = none := List.getElem?_eq_none hlen
    simp [scan, hline, hlen]
  · obtain ⟨f, hf, -⟩ := scan_of_long (Nat.lt_of_not_le hlen)
    simp [hf, hlen]

theorem assembleChars_ok_iff {text : List Char} {prog : List SourceInstr} :
    assembleChars text = .ok prog ↔ ∃ raws table, scan text = .ok (raws, table) ∧
      raws.map (resolveLine table) = prog.map .ok := by
  cases hs : scan text with
  | error f => simp [assembleChars, hs]
  | ok r => obtain ⟨raws, table⟩ := r; simp [assembleChars, hs, resolveAll_ok_iff]

/-- Settles O55: the scan pass counts the lines before it looks at any (log entry 6). -/
theorem longProgramsRejected : Obligations.LongProgramsRejected := by
  intro text h
  obtain ⟨f, hf, herr⟩ := scan_of_long h
  exact ⟨f, by rw [assembleChars, hf], herr⟩

/-- Settles O57: records and symbol table by induction over the lines; the label by the first field. -/
theorem labelValueIsLoadAddress : Obligations.LabelValueIsLoadAddress := by
  intro text raws table h
  obtain ⟨hlen, hscan⟩ := scan_ok_iff.mp h
  have hraws := length_of_scanFrom_ok hscan
  refine ⟨hraws, fun k raw hk => ?_, fun l v => ?_⟩
  · have hlt : k < raws.length := (List.getElem?_eq_some_iff.mp hk).1
    obtain ⟨physical, fields, hline, hs⟩ := scanLine_of_scanFrom_ok hscan hk
    rw [Nat.zero_add] at hs
    obtain ⟨-, rfl⟩ := scanLine_ok_iff.mp hs
    exact ⟨rfl, by omega, physical, fields, hline, hs, fun l => splitLabel_fst_eq_some_iff⟩
  · rw [lookupSymbol_of_scanFrom_ok hscan]
    simp [lookupSymbol]

/-! ## What assembles -/

/-- Where a line stands in the text does not matter to either pass, so the same fields on other lines give records that
the resolve pass treats alike. -/
theorem scanFrom_ok_of_same_fields {index : Nat} {table final : SymbolTable} {lines lines' : List (Nat × List Token)}
    {raws : List RawLine} (hf : lines.map Prod.snd = lines'.map Prod.snd)
    (h : scanFrom index table lines = .ok (raws, final)) :
    ∃ raws', scanFrom index table lines' = .ok (raws', final) ∧
      ∀ t, raws'.map (resolveLine t) = raws.map (resolveLine t) := by
  induction lines generalizing index table lines' raws with
  | nil =>
    obtain rfl : lines' = [] := List.map_eq_nil_iff.mp hf.symm
    exact ⟨raws, h, fun _ => rfl⟩
  | cons line rest ih =>
    obtain ⟨physical, fields⟩ := line
    obtain ⟨⟨physical', fields'⟩, rest', rfl, hline, hrest⟩ := List.map_eq_cons_iff.mp hf.symm
    obtain rfl : fields' = fields := hline
    obtain ⟨raw, table', raws₁, hs, hd, hr, rfl⟩ := scanFrom_cons_ok_iff.mp h
    obtain ⟨hfew, rfl⟩ := scanLine_ok_iff.mp hs
    obtain ⟨raws₂, hr', hres⟩ := ih hrest.symm hr
    have hs' : scanLine physical' index fields' = .ok (lineRecord physical' index fields') :=
      scanLine_ok_iff.mpr ⟨hfew, rfl⟩
    exact ⟨_, scanFrom_cons_ok_iff.mpr ⟨_, table', raws₂, hs', hd, hr', rfl⟩,
      fun t => congrArg (resolveLine t _ :: ·) (hres t)⟩

/-- What a text assembles to depends on the fields of its instruction-producing lines alone. -/
theorem assembleChars_ok_of_instrFields_eq {text text' : List Char} {prog : List SourceInstr}
    (hf : instrFields (splitLines text) = instrFields (splitLines text')) (h : assembleChars text = .ok prog) :
    assembleChars text' = .ok prog := by
  have hsnd : (instrLines text).map Prod.snd = (instrLines text').map Prod.snd := by
    rw [instrLines, instrLines, instrLinesFrom_map_snd, instrLinesFrom_map_snd, hf]
  have hlength : (instrLines text).length = (instrLines text').length := by
    simpa using congrArg List.length hsnd
  obtain ⟨raws, table, hscan, hres⟩ := assembleChars_ok_iff.mp h
  obtain ⟨hlen, hfrom⟩ := scan_ok_iff.mp hscan
  obtain ⟨raws', hfrom', hsame⟩ := scanFrom_ok_of_same_fields hsnd hfrom
  exact assembleChars_ok_iff.mpr
    ⟨raws', table, scan_ok_iff.mpr ⟨hlength ▸ hlen, hfrom'⟩, (hsame table).trans hres⟩

theorem assembleChars_ok_congr {text text' : List Char} {prog : List SourceInstr}
    (hf : instrFields (splitLines text) = instrFields (splitLines text')) :
    assembleChars text = .ok prog ↔ assembleChars text' = .ok prog :=
  ⟨assembleChars_ok_of_instrFields_eq hf, assembleChars_ok_of_instrFields_eq hf.symm⟩

/-- Settles O56: a blank line adds no fields, wherever it stands. -/
theorem blankLinesProduceNothing : Obligations.BlankLinesProduceNothing := by
  intro line text prog hnl hblank
  have hline : instrFields (splitLines line) = [] := by rw [splitLines_of_no_newline hnl, instrFields_blank hblank]
  refine ⟨assembleChars_ok_congr ?_, fun before => ⟨assembleChars_ok_congr ?_, assembleChars_ok_congr ?_⟩⟩ <;>
    simp only [splitLines_append_newline, instrFields_append, hline, List.nil_append, List.append_nil]

/-- A program whose every instruction is assembled encodes, one canonical byte an instruction (R57). -/
theorem encodeProgram_of_assembled {prog : List SourceInstr} (h : ∀ i ∈ prog, IsAssembled i) :
    ∃ bytes, encodeProgram prog = .ok bytes ∧ bytes.length = prog.length ∧
      ∀ b ∈ bytes, encode (decode b) = b ∧ ((∃ n, decode b = .stop n) → b = 0x01) := by
  induction prog with
  | nil => exact ⟨[], rfl, rfl, by simp⟩
  | cons i rest ih =>
    obtain ⟨⟨j, rfl, hwf, hstop⟩, hrest⟩ := List.forall_mem_cons.mp h
    obtain ⟨bytes, hbytes, hlen, hall⟩ := ih hrest
    refine ⟨encode j :: bytes, by simp [encodeProgram, encodeSource_sourceOf, hbytes], by simp [hlen], ?_⟩
    refine List.forall_mem_cons.mpr ⟨?_, hall⟩
    rw [decode_encode hwf]
    refine ⟨rfl, fun ⟨n, hn⟩ => ?_⟩
    rw [hn, hstop n hn]
    rfl

theorem launch_of_length_le {bytes : List Byte} (h : bytes.length ≤ 32) : ∃ s, launch bytes = .ok s :=
  ⟨_, if_neg (Nat.not_lt.mpr h)⟩

/-- Settles O59: the resolve pass gives one assembled instruction a record, and there are at most 31 records. -/
theorem assembledProgramsEncodeAndLoad : Obligations.AssembledProgramsEncodeAndLoad := by
  intro text prog h
  obtain ⟨raws, table, hscan, hres⟩ := assembleChars_ok_iff.mp h
  obtain ⟨hlen, hfrom⟩ := scan_ok_iff.mp hscan
  have hprog : prog.length = (instrLines text).length := by
    rw [← length_of_scanFrom_ok hfrom]
    simpa using (congrArg List.length hres).symm
  have hassembled : ∀ i ∈ prog, IsAssembled i := fun i hi => by
    obtain ⟨raw, -, hraw⟩ := List.mem_map.mp (hres ▸ List.mem_map_of_mem hi)
    exact isAssembled_of_resolveLine_ok hraw
  obtain ⟨bytes, hbytes, hblen, hall⟩ := encodeProgram_of_assembled hassembled
  exact ⟨by omega, hprog, bytes, hbytes, hblen, hall, launch_of_length_le (by omega)⟩

/-- Settles O60: both passes evaluated on the texts of the source. -/
theorem workedAssemblies : Obligations.WorkedAssemblies :=
  ⟨by decide, by decide, by decide, by decide, by decide, by decide⟩

end Sys2Proof.Machine
end

section
/-! SUPPORT. One step and a bounded run (40_fetch_execute.md R80 to R85, R89): the fetch phase, the step as the execute
phase of the fetched byte, where `pc` goes, which outcomes a step has, and runs one after another. -/

namespace Sys2Proof.Machine

open Sys2Proof.Reference

/-- Settles O33: the fields the fetch phase writes, the 5-bit increment read as a number. -/
theorem fetchPhase : Obligations.FetchPhase := fun s => ⟨fetch_ir s, nextPc_toNat s.pc, rfl⟩

/-- Settles O34: a running machine executes the byte read at `pc`. -/
theorem stepRunsDecodedInstruction : Obligations.StepRunsDecodedInstruction := by
  rintro s _ hh rfl
  exact step_of_memRead_pc hh rfl

/-- Settles O24: the effect writes `pc` only with the target of a taken transfer, and the fetch phase has left the
following address there. -/
theorem programCounterWriters : Obligations.ProgramCounterWriters := by
  intro s t h
  rw [← effect_of_step h, effect_pc, fetch_zf, fetch_pc, followingPc_eq_nextPc]

/-- A refused step is that of a halted machine: a running one has a next state. -/
theorem step_refused {s : State} {r : Refusal} (h : step s = .refused r) : s.halted = true ∧ r = .halted := by
  cases hh : s.halted with
  | true =>
    rw [step_of_halted hh] at h
    cases h
    exact ⟨rfl, rfl⟩
  | false =>
    obtain ⟨t, ht⟩ := exists_step_of_running hh
    rw [ht] at h
    cases h

/-- Settles O35: running machines step, and a halted one's step is refused; the type of faults is empty. -/
theorem stepIsTotal : Obligations.StepIsTotal :=
  ⟨fun _ => exists_step_of_running, nofun, fun _ _ => step_refused⟩

/-- A cut run continues where it stopped (R85). -/
theorem runFor_add (j k : Nat) (s : State) : runFor (j + k) s = runFor k (runFor j s) := by
  induction j generalizing s with
  | zero => rw [Nat.zero_add, runFor_zero]
  | succ j ih =>
    cases hh : s.halted with
    | true => simp only [runFor_of_halted hh]
    | false =>
      obtain ⟨t, ht⟩ := exists_step_of_running hh
      rw [Nat.succ_add, runFor_succ_next ht, runFor_succ_next ht, ih]

/-- Settles O40: two runs that halt after `j` and `k` steps both stand, halted, after `j + k`. -/
theorem boundDoesNotMatter : Obligations.BoundDoesNotMatter := by
  refine ⟨runFor_add, ?_⟩
  rintro s _ _ ⟨j, rfl, hj⟩ ⟨k, rfl, hk⟩
  calc runFor j s = runFor (j + k) s := by rw [runFor_add, runFor_of_halted hj]
    _ = runFor (k + j) s := by rw [Nat.add_comm]
    _ = runFor k s := by rw [runFor_add, runFor_of_halted hk]

end Sys2Proof.Machine
end

section
/-! SUPPORT. The model against the pseudocode of 40_fetch_execute.md R88. The pseudocode's row of an instruction stands
between the two: `Record.step` picks the row of the decoded byte, and the row is the effect of the instruction, seen as
numbers. -/

namespace Sys2Proof.Machine

open Sys2Proof.Reference

/-- The row of R88 for an instruction, after the line that increments `pc`. -/
def pseudoRow : Instr → Record → Record
  | .clear, r => { r with x0 := 0, zf := true }
  | .stop _, r => { r with halted := true }
  | .inc, r => r.result ((r.x0 + 1) % 256)
  | .add n, r => r.result ((r.x0 + n.toNat) % 256)
  | .dec, r => r.result ((r.x0 + 255) % 256)
  | .jmp n, r => { r with pc := n.toNat }
  | .bnz n, r => if r.zf = false then { r with pc := n.toNat } else r
  | .load n, r => { r with x0 := r.mem n.toNat }
  | .store n, r => r.memWrite n.toNat r.x0

/-- The pseudocode's step is the row of the instruction that the byte at `pc` decodes to. -/
theorem recordStep_eq_pseudoRow {r : Record} {b : Byte} (hb : r.mem r.pc = b.toNat) :
    r.step = pseudoRow (decode b) { r with pc := (r.pc + 1) % 32 } := by
  unfold Record.step
  simp only [hb, ← opcodeOf_toNat, ← operandOf_toNat]
  rw [← joinByte_fields b, opcodeOf_joinByte, operandOf_joinByte]
  generalize operandOf b = n
  rcases opcode_cases (opcodeOf b) with h | h | h | h | h | h | h | h <;> rw [h]
  · rw [decode_joinByte_zero]
    by_cases hn : n = 0
    · subst hn; rfl
    · rw [if_neg hn]
      exact if_neg fun h0 => hn (BitVec.eq_of_toNat_eq h0)
  · rw [decode_joinByte_one]; rfl
  · rw [decode_joinByte_two]; rfl
  · rw [decode_joinByte_three]; rfl
  · rw [decode_joinByte_four]; rfl
  · rw [decode_joinByte_five]; rfl
  · rw [decode_joinByte_six]; rfl
  · rw [decode_joinByte_seven]; rfl

theorem view_fetch (s : State) : view (fetch s) = { view s with pc := ((view s).pc + 1) % 32 } := by
  simp [view, nextPc_toNat]

theorem zeroFlag_eq_toNat_beq (r : Byte) : zeroFlag r = (r.toNat == 0) := by
  rw [Bool.eq_iff_iff, zeroFlag_iff, beq_iff_eq]
  exact BitVec.toNat_inj.symm

/-- The arithmetic unit's two outputs are a result line of R88. -/
theorem view_commitAlu (op : AluOp) (b : Byte) (s : State) :
    view (commitAlu op b s) = (view s).result (alu op s.acc b).toNat := by
  simp [view, Record.result, zeroFlag_eq_toNat_beq]

/-- A write into a canonical memory is the record's write at the same number. -/
theorem view_memWrite {s : State} (h : Memory.wf s.mem = true) (a : Addr) (v : Byte) :
    view (memWrite s a v) = (view s).memWrite a.toNat v.toNat := by
  have hmem : ∀ b, (Memory.read (memWrite s a v).mem b).toNat =
      if b = a.toNat then v.toNat else (Memory.read s.mem b).toNat := by
    intro b
    split
    · next hb => rw [hb, memWrite_mem, Memory.read_write_at h]
    · next hb => rw [memWrite_mem, Memory.read_write_off hb]
  simp only [view, Record.memWrite, hmem]
  rfl

/-- The effect of an instruction, seen as numbers, is its row of R88. -/
theorem view_effect (i : Instr) {s : State} (h : Memory.wf s.mem = true) :
    view (effect i s) = pseudoRow i (view s) := by
  cases i with
  | clear | stop n | jmp n | load n => rfl
  | inc => exact (view_commitAlu .inc 0 s).trans (congrArg _ (alu_inc_toNat s.acc 0))
  | add n =>
    refine (view_commitAlu .add (immediate n) s).trans (congrArg _ ?_)
    rw [alu_add_toNat, immediate_toNat]
    rfl
  | dec => exact (view_commitAlu .dec 0 s).trans (congrArg _ (alu_dec_toNat s.acc 0))
  | bnz n => cases hz : s.zf <;> simp [effect, pseudoRow, view, hz]
  | store n => exact view_memWrite h n s.acc

/-- A step, seen as numbers, is a step of the pseudocode. -/
theorem view_of_step {s t : State} (hwf : Memory.wf s.mem = true) (h : step s = .next t) :
    view t = (view s).step := by
  have hbyte : (view s).mem (view s).pc = (memRead s s.pc).toNat := rfl
  calc view t = view (effect (decode (memRead s s.pc)) (fetch s)) := by rw [effect_of_step h]
    _ = pseudoRow (decode (memRead s s.pc)) (view (fetch s)) := view_effect _ (s := fetch s) hwf
    _ = (view s).step := by rw [recordStep_eq_pseudoRow hbyte, view_fetch]

/-- Settles O36: a running machine has a next state, whose view `view_of_step` gives. -/
theorem stepIsPseudocode : Obligations.StepIsPseudocode := by
  intro s hwf hh
  obtain ⟨t, ht⟩ := exists_step_of_running hh
  exact ⟨t, ht, view_of_step hwf ht⟩

theorem recordRun_of_halted {r : Record} (h : r.halted = true) (k : Nat) : r.run k = r := by
  cases k with
  | zero => rfl
  | succ k => simp [Record.run, h]

theorem recordRun_succ_of_running {r : Record} (h : r.halted = false) (k : Nat) : r.run (k + 1) = r.step.run k := by
  simp [Record.run, h]

/-- Settles O37: by induction on the bound; each step is the pseudocode's and keeps the memory canonical. -/
theorem runIsPseudocode : Obligations.RunIsPseudocode := by
  intro k
  induction k with
  | zero => exact fun _ _ => rfl
  | succ k ih =>
    intro s hwf
    cases hh : s.halted with
    | true => rw [runFor_of_halted hh, recordRun_of_halted (r := view s) hh]
    | false =>
      obtain ⟨t, ht⟩ := exists_step_of_running hh
      rw [runFor_succ_next ht, ih t (step_keeps_wf hwf ht), view_of_step hwf ht,
        recordRun_succ_of_running (r := view s) hh]

end Sys2Proof.Machine
end

section
/-! SUPPORT. The fetch-execute state machine (40_fetch_execute.md R84): its transitions, and that two ticks with the
memory attached are one step of the model. -/

namespace Sys2Proof.Machine

open Sys2Proof.Reference

theorem atBoundary_of_halted {s : State} (h : s.halted = true) : atBoundary s = ⟨.halted, s⟩ := by
  simp [atBoundary, boundaryPhase, h]

theorem atBoundary_of_running {s : State} (h : s.halted = false) : atBoundary s = ⟨.fetch, s⟩ := by
  simp [atBoundary, boundaryPhase, h]

/-- EXECUTE sets the halted latch for STOP and for no other instruction (R60). -/
theorem executeByControls_halted (v : Byte) (s : State) :
    (executeByControls v s).halted = (s.halted || isStop (decode s.ir)) := by
  rw [executeByControls_eq_driven]
  cases hi : decode s.ir <;> rfl

theorem isStop_eq_false {i : Instr} (h : ∀ n, i ≠ .stop n) : isStop i = false := by
  cases i with
  | stop n => exact absurd rfl (h n)
  | _ => rfl

/-- Settles O50: EXECUTE ends at the boundary of the state it leaves, which is halted exactly after a STOP. -/
theorem phaseTransitions : Obligations.PhaseTransitions := by
  refine ⟨fun s v => ?_, fun _ _ => rfl, fun s run v hh => ⟨?_, fun hn => ?_⟩, fun _ _ _ => rfl, fun _ _ _ => rfl⟩
  · rw [followingPc_eq_nextPc]; rfl
  · rintro ⟨n, hn⟩
    have hhalted : (executeByControls v s).halted = true := by rw [executeByControls_halted, hh, hn]; rfl
    exact congrArg Block.phase (atBoundary_of_halted hhalted)
  · have hrunning : (executeByControls v s).halted = false := by
      rw [executeByControls_halted, hh, isStop_eq_false hn]; rfl
    exact congrArg Block.phase (atBoundary_of_running hrunning)

/-- FETCH with the memory attached is the fetch phase of the model: `mem_rdata` is the byte at `pc`. -/
theorem attachedTick_fetch (idle : Byte) (s : State) :
    attachedTick false true idle ⟨.fetch, s⟩ = ⟨.execute, fetch s⟩ := rfl

/-- In EXECUTE of a LOAD the attached memory answers with the byte the instruction loads. -/
theorem memoryAnswer_execute_load {s : State} {n : Addr} (h : decode s.ir = .load n) (idle : Byte) :
    memoryAnswer idle ⟨.execute, s⟩ = memRead s n :=
  memoryAnswer_of_memAddr (by rw [ports_execute_memAddr, h]; rfl) idle

/-- EXECUTE with the memory attached leads to the boundary with the effect of the instruction in `IR`. -/
theorem attachedTick_execute (idle : Byte) (s : State) :
    attachedTick false true idle ⟨.execute, s⟩ = atBoundary (effect (decode s.ir) s) := by
  have hexec := controlsImplementExecutePhase s (memoryAnswer idle ⟨.execute, s⟩)
    fun _ hn => memoryAnswer_execute_load hn idle
  rw [effect_of_exec hexec]
  rfl

/-- Two ticks from a boundary are one step of the model. -/
theorem attachedTick_twice_of_step {s t : State} (h : step s = .next t) (idle idle' : Byte) :
    attachedTick false true idle' (attachedTick false true idle (atBoundary s)) = atBoundary t := by
  rw [atBoundary_of_running (step_next h).1, attachedTick_fetch, attachedTick_execute, fetch_ir, effect_of_step h]

/-- A halted machine stays in HALTED, however long it is ticked (R84, R142). -/
theorem ticks_of_halted {s : State} (h : s.halted = true) (idles : List Byte) :
    ticks false true idles (atBoundary s) = atBoundary s := by
  rw [atBoundary_of_halted h]
  induction idles with
  | nil => rfl
  | cons idle rest ih => exact ih

/-- Settles O51: by induction on the number of steps, two idle bytes for each. -/
theorem ticksImplementRuns : Obligations.TicksImplementRuns := by
  intro k
  induction k with
  | zero =>
    intro s idles hlen
    rw [List.eq_nil_of_length_eq_zero hlen]
    rfl
  | succ k ih =>
    intro s idles hlen
    cases hh : s.halted with
    | true => rw [runFor_of_halted hh, ticks_of_halted hh]
    | false =>
      obtain ⟨t, ht⟩ := exists_step_of_running hh
      match idles, hlen with
      | idle :: idle' :: rest, hlen =>
        have hrest : rest.length = 2 * k := by simp only [List.length_cons] at hlen; omega
        rw [runFor_succ_next ht, ← ih t rest hrest, ← attachedTick_twice_of_step ht idle idle']
        rfl

end Sys2Proof.Machine
end

section
/-! SUPPORT. Which bytes decode to an instruction (30_encoding.md R53, R54, R57): the one byte that encodes it, or, for
INC and DEC, which ignore the operand field, all bytes with their opcode. -/

namespace Sys2Proof

theorem decode_of_opcodeOf_one {b : Byte} (h : opcodeOf b = 1) : decode b = .inc := by
  rw [← joinByte_fields b, h, decode_joinByte_one]

theorem decode_of_opcodeOf_three {b : Byte} (h : opcodeOf b = 3) : decode b = .dec := by
  rw [← joinByte_fields b, h, decode_joinByte_three]

/-- Encoding a decoded byte keeps its opcode. -/
theorem opcodeOf_encode_decode (b : Byte) : opcodeOf (encode (decode b)) = opcodeOf b := by
  rw [encode_decode, opcodeOf_joinByte]

theorem decode_eq_inc_iff {b : Byte} : decode b = .inc ↔ opcodeOf b = 1 :=
  ⟨fun h => by rw [← opcodeOf_encode_decode, h]; rfl, decode_of_opcodeOf_one⟩

theorem decode_eq_dec_iff {b : Byte} : decode b = .dec ↔ opcodeOf b = 3 :=
  ⟨fun h => by rw [← opcodeOf_encode_decode, h]; rfl, decode_of_opcodeOf_three⟩

/-- A well-formed instruction other than INC and DEC is decoded from its own byte and from no other. -/
theorem decode_eq_iff_eq_encode {b : Byte} {i : Instr} (hwf : i.wf = true) (hinc : i ≠ .inc) (hdec : i ≠ .dec) :
    decode b = i ↔ b = encode i := by
  refine ⟨fun h => ?_, fun h => by rw [h, decode_encode hwf]⟩
  have hop : ¬(opcodeOf b = 1 ∨ opcodeOf b = 3) := by
    rintro (h1 | h3)
    · exact hinc (h.symm.trans (decode_of_opcodeOf_one h1))
    · exact hdec (h.symm.trans (decode_of_opcodeOf_three h3))
  rw [← h, encode_decode, canonicalOperand_of_used hop, joinByte_fields]

/-- The bytes with one opcode are 32 in a row. -/
theorem opcodeOf_eq_iff {b : Byte} {op : Opcode} :
    opcodeOf b = op ↔ op.toNat * 32 ≤ b.toNat ∧ b.toNat ≤ op.toNat * 32 + 31 := by
  rw [← BitVec.toNat_inj, opcodeOf_toNat]
  omega

theorem eq_joinByte_iff {b : Byte} {op : Opcode} {n : Addr} :
    b = joinByte op n ↔ b.toNat = op.toNat * 32 + n.toNat := by
  rw [← BitVec.toNat_inj, joinByte_toNat]

theorem decode_eq_clear_iff {b : Byte} : decode b = .clear ↔ b = 0x00 :=
  decode_eq_iff_eq_encode rfl nofun nofun

theorem decode_eq_add_iff {b : Byte} {n : Addr} : decode b = .add n ↔ b.toNat = 0x40 + n.toNat :=
  (decode_eq_iff_eq_encode (i := .add n) rfl nofun nofun).trans (eq_joinByte_iff (op := 2))

end Sys2Proof
end

section
/-! SUPPORT. CLEAR, INC, ADD and DEC (41_accumulator_arithmetic.md): each is one result of the arithmetic unit, written
to the accumulator and, as its zero indication, to the flag. -/

namespace Sys2Proof.Machine

open Sys2Proof.Reference

/-- Settles O26: the unit's laws on numbers. -/
theorem arithmeticUnit : Obligations.ArithmeticUnit := by
  refine ⟨fun a n => ⟨immediate_toNat n, rfl, alu_inc_toNat a _, ?_, alu_dec_toNat a _⟩, fun r => ?_⟩
  · exact (alu_add_toNat a (immediate n)).trans (by rw [immediate_toNat])
  · rw [zeroFlag_eq_toNat_beq, beq_iff_eq]

/-- Settles O22: the flag's writers give it the zero indication, the others leave it; CLEAR's result is 0. -/
theorem flagWriters : Obligations.FlagWriters := by
  refine ⟨fun i s t h => ?_, rfl⟩
  obtain rfl := effect_of_exec h
  refine ⟨?_, fun hw => ?_, effect_zf_of_not_writesZf⟩
  · rintro rfl; rfl
  · rw [effect_zf_of_writesZf hw, zeroFlag_iff]

/-- A running machine executes the instruction at `pc` in the state the fetch phase leaves. -/
theorem step_of_decode {s : State} {i : Instr} (hh : s.halted = false) (hd : decode (memRead s s.pc) = i) :
    step s = exec i (afterFetch s) := by
  rw [step_of_running hh, hd]
  rfl

/-- The result of the unit and its zero indication, written out on numbers. -/
theorem commitAlu_eq_of_toNat {op : AluOp} {b : Byte} {s : State} {r : Nat} (h : (alu op s.acc b).toNat = r) :
    commitAlu op b s = { s with acc := BitVec.ofNat 8 r, zf := r == 0 } := by
  subst h
  exact State.eq_of_fields rfl (by simp) (zeroFlag_eq_toNat_beq _) rfl rfl rfl

theorem exec_inc_eq (s : State) : exec .inc s =
    .next { s with acc := BitVec.ofNat 8 ((s.acc.toNat + 1) % 256), zf := (s.acc.toNat + 1) % 256 == 0 } :=
  congrArg _ (commitAlu_eq_of_toNat (alu_inc_toNat s.acc 0))

theorem exec_add_eq (n : Addr) (s : State) : exec (.add n) s =
    .next { s with
      acc := BitVec.ofNat 8 ((s.acc.toNat + n.toNat) % 256), zf := (s.acc.toNat + n.toNat) % 256 == 0 } :=
  congrArg _ (commitAlu_eq_of_toNat (by rw [alu_add_toNat, immediate_toNat]))

theorem exec_dec_eq (s : State) : exec .dec s =
    .next { s with acc := BitVec.ofNat 8 ((s.acc.toNat + 255) % 256), zf := (s.acc.toNat + 255) % 256 == 0 } :=
  congrArg _ (commitAlu_eq_of_toNat (alu_dec_toNat s.acc 0))

/-- A sum modulo 256 is 0 for exactly one first summand, the one that makes 256 with the second. -/
theorem add_mod_eq_zero_iff {a c : Byte} {k : Nat} (hk : c.toNat + k = 256) :
    (a.toNat + k) % 256 = 0 ↔ a = c := by
  have ha := a.isLt
  have hc := c.isLt
  rw [← BitVec.toNat_inj]
  omega

/-- Settles O8: CLEAR is a no-operation exactly where its result already stands in both places it writes. -/
theorem clearResetsAccumulator : Obligations.ClearResetsAccumulator := by
  refine ⟨fun b => decode_eq_clear_iff, fun s => rfl, fun s => ⟨fun h => ?_, fun ⟨ha, hz⟩ => ?_⟩, fun s hh hb => ?_⟩
  · rw [← effect_of_exec h]
    exact ⟨rfl, rfl⟩
  · exact (exec_clear s).trans (congrArg _ (State.eq_of_fields rfl ha.symm hz.symm rfl rfl rfl))
  · exact step_of_decode hh (decode_eq_clear_iff.mpr hb)

/-- Settles O9: the bytes with opcode 1, and the sum as a number. -/
theorem incAddsOne : Obligations.IncAddsOne := by
  have hbytes : ∀ b, decode b = .inc ↔ 0x20 ≤ b.toNat ∧ b.toNat ≤ 0x3F := fun b =>
    decode_eq_inc_iff.trans opcodeOf_eq_iff
  refine ⟨hbytes, exec_inc_eq, fun s t h => ?_, fun s hh hlo hhi => ?_⟩
  · obtain rfl := Host.Outcome.next.inj ((exec_inc_eq s).symm.trans h)
    exact beq_iff_eq.trans (add_mod_eq_zero_iff rfl)
  · exact (step_of_decode hh ((hbytes _).mpr ⟨hlo, hhi⟩)).trans (exec_inc_eq (afterFetch s))

/-- Settles O10: the byte that encodes `ADD n`, and the sum as a number, which is 0 or 256 for a zero result. -/
theorem addAddsImmediate : Obligations.AddAddsImmediate := by
  refine ⟨fun b n => decode_eq_add_iff, exec_add_eq, fun n s t h => ?_, fun n s hh hb => ?_⟩
  · obtain rfl := Host.Outcome.next.inj ((exec_add_eq n s).symm.trans h)
    have hacc := s.acc.isLt
    have hn := n.isLt
    simp only [beq_iff_eq, ← BitVec.toNat_inj, BitVec.ofNat_eq_ofNat, BitVec.toNat_zero]
    omega
  · exact (step_of_decode hh (decode_eq_add_iff.mpr hb)).trans (exec_add_eq n (afterFetch s))

/-- Settles O11: the bytes with opcode 3, and the sum as a number. -/
theorem decSubtractsOne : Obligations.DecSubtractsOne := by
  have hbytes : ∀ b, decode b = .dec ↔ 0x60 ≤ b.toNat ∧ b.toNat ≤ 0x7F := fun b =>
    decode_eq_dec_iff.trans opcodeOf_eq_iff
  refine ⟨hbytes, exec_dec_eq, fun s t h => ?_, fun s hh hlo hhi => ?_⟩
  · obtain rfl := Host.Outcome.next.inj ((exec_dec_eq s).symm.trans h)
    exact beq_iff_eq.trans (add_mod_eq_zero_iff rfl)
  · exact (step_of_decode hh ((hbytes _).mpr ⟨hlo, hhi⟩)).trans (exec_dec_eq (afterFetch s))

/-- Each of the four instructions commits one operation of the unit, with an operand that is in the instruction. -/
theorem effect_eq_commitAlu {i : Instr} (hi : i = .clear ∨ i = .inc ∨ i = .dec ∨ ∃ n, i = .add n) :
    ∃ op b, effect i = commitAlu op b := by
  obtain rfl | rfl | rfl | ⟨n, rfl⟩ := hi
  · exact ⟨.zero, 0, rfl⟩
  · exact ⟨.inc, 0, rfl⟩
  · exact ⟨.dec, 0, rfl⟩
  · exact ⟨.add, immediate n, rfl⟩

/-- Settles O17: the commit of a result looks at the accumulator alone and writes the accumulator and the flag. -/
theorem arithmeticFrame : Obligations.ArithmeticFrame := by
  refine ⟨fun i s t hi h => ?_, ?_⟩
  · obtain ⟨op, b, hop⟩ := effect_eq_commitAlu hi
    obtain rfl := effect_of_exec h
    simp only [exec_eq_effect, hop]
    exact ⟨fun _ => rfl, rfl, rfl, rfl, rfl, fun _ => rfl⟩
  · rintro s t _ rfl hi h
    obtain ⟨op, b, hop⟩ := effect_eq_commitAlu hi
    obtain rfl := effect_of_step h
    rw [hop, followingPc_eq_nextPc]
    exact ⟨rfl, fun _ => rfl, rfl⟩

/-! ## The laws of R107: INC and DEC add a constant, and additions one after another are one addition. -/

theorem effect_inc_eq_add : effect .inc = commitAlu .add 1 := rfl

theorem effect_dec_eq_add : effect .dec = commitAlu .add 255 := rfl

theorem commitAlu_add_add (b c : Byte) (s : State) :
    commitAlu .add c (commitAlu .add b s) = commitAlu .add (b + c) s := by
  have hr : alu .add (alu .add s.acc b) c = alu .add s.acc (b + c) := BitVec.add_assoc s.acc b c
  exact State.eq_of_fields rfl hr (congrArg zeroFlag hr) rfl rfl rfl

/-- Operands whose sum fits the operand field are added there or after the extension (law (d)'s bound). -/
theorem immediate_add {a b : Addr} (h : a.toNat + b.toNat ≤ 31) : immediate a + immediate b = immediate (a + b) := by
  apply BitVec.eq_of_toNat_eq
  rw [BitVec.toNat_add, immediate_toNat, immediate_toNat, immediate_toNat, BitVec.toNat_add]
  omega

theorem execAll_cons (i : Instr) (rest : List Instr) (s : State) :
    execAll (i :: rest) s = execAll rest (effect i s) := by
  rw [execAll, exec_eq_effect]

theorem execAll_pair (i j : Instr) (s : State) : execAll [i, j] s = .next (effect j (effect i s)) := by
  rw [execAll_cons, execAll_cons, execAll]

/-- `k` executions of an instruction that adds `c` add `k * c`. -/
theorem execAll_replicate_acc {i : Instr} {c : Byte} (hi : effect i = commitAlu .add c) (k : Nat) (s : State) :
    ∃ t, execAll (List.replicate k i) s = .next t ∧ t.acc = s.acc + BitVec.ofNat 8 k * c := by
  induction k generalizing s with
  | zero => exact ⟨s, rfl, by simp⟩
  | succ k ih =>
    obtain ⟨t, ht, hacc⟩ := ih (effect i s)
    refine ⟨t, by rw [List.replicate_succ, execAll_cons, ht], ?_⟩
    have hk : BitVec.ofNat 8 (k + 1) = BitVec.ofNat 8 k + 1 := BitVec.ofNat_add ..
    calc t.acc = s.acc + c + BitVec.ofNat 8 k * c := by rw [hacc, hi]; rfl
      _ = s.acc + BitVec.ofNat 8 (k + 1) * c := by rw [hk]; ring

/-- 256 additions of one constant leave the accumulator as it was. -/
theorem execAll_replicate_256_acc {i : Instr} {c : Byte} (hi : effect i = commitAlu .add c) (s : State) :
    ∃ t, execAll (List.replicate 256 i) s = .next t ∧ t.acc = s.acc := by
  obtain ⟨t, ht, hacc⟩ := execAll_replicate_acc hi 256 s
  have h256 : BitVec.ofNat 8 256 = 0 := rfl
  exact ⟨t, ht, by rw [hacc, h256, zero_mul, add_zero]⟩

/-- Settles O27: (a) to (d) are additions of constants; (e) and (f) hold of every commit of a result. -/
theorem arithmeticLaws : Obligations.ArithmeticLaws := by
  refine ⟨fun s => rfl, fun s => ⟨commitAlu .add 0 s, ?_, ?_, BitVec.add_zero s.acc, rfl⟩, fun s => ?_,
    fun s a b hab => ?_, fun i s t hi h => ?_⟩
  · rw [execAll_pair, effect_dec_eq_add, effect_inc_eq_add, commitAlu_add_add]
    rfl
  · rw [execAll_pair, effect_dec_eq_add, effect_inc_eq_add, commitAlu_add_add]
    rfl
  · obtain ⟨t, ht, htacc⟩ := execAll_replicate_256_acc effect_inc_eq_add s
    obtain ⟨u, hu, huacc⟩ := execAll_replicate_256_acc effect_dec_eq_add s
    exact ⟨t, u, ht, htacc, hu, huacc⟩
  · rw [execAll_pair, exec_add, ← immediate_add hab]
    exact congrArg _ (commitAlu_add_add (immediate a) (immediate b) s)
  · obtain ⟨op, b, hop⟩ := effect_eq_commitAlu hi
    obtain rfl := effect_of_exec h
    simp only [exec_eq_effect, hop]
    exact ⟨rfl, fun _ => rfl⟩

end Sys2Proof.Machine
end

section
/-! SUPPORT. JMP and BNZ (42_control_transfer.md): the byte of each, and the one write of `pc`, which replaces the value
the fetch phase left there (40_fetch_execute.md R83). -/

namespace Sys2Proof

theorem decode_eq_jmp_iff {b : Byte} {n : Addr} : decode b = .jmp n ↔ b.toNat = 0x80 + n.toNat :=
  (decode_eq_iff_eq_encode (i := .jmp n) rfl nofun nofun).trans (eq_joinByte_iff (op := 4))

theorem decode_eq_bnz_iff {b : Byte} {n : Addr} : decode b = .bnz n ↔ b.toNat = 0xA0 + n.toNat :=
  (decode_eq_iff_eq_encode (i := .bnz n) rfl nofun nofun).trans (eq_joinByte_iff (op := 5))

namespace Machine

/-- BNZ as one choice of the value in `pc`: the target when the flag is false, the old value when it is true. -/
theorem exec_bnz_eq (n : Addr) (s : State) :
    exec (.bnz n) s = .next { s with pc := if s.zf = false then n else s.pc } := by
  obtain ⟨mem, acc, zf, pc, halted, ir⟩ := s
  cases zf <;> rfl

/-- Settles O12: the byte that encodes `JMP n`, and the write of `pc`, which overwrites the fetch phase's. -/
theorem jmpLoadsTarget : Obligations.JmpLoadsTarget := by
  refine ⟨fun b n => decode_eq_jmp_iff, fun n s => exec_jmp s n, fun n s hh hb => ?_⟩
  exact (step_of_decode hh (decode_eq_jmp_iff.mpr hb)).trans (exec_jmp (Reference.afterFetch s) n)

/-- Settles O13: the byte that encodes `BNZ n`, and the choice of `pc`, whose old value in a step is the following
address. -/
theorem bnzTestsFlag : Obligations.BnzTestsFlag := by
  refine ⟨fun b n => decode_eq_bnz_iff, fun n s hz => ?_, fun n s hz => ?_, fun n s hh hb => ?_⟩
  · rw [exec_bnz_eq, if_pos hz]
  · rw [exec_bnz_eq, if_neg (ne_false_of_eq_true hz)]
  · rw [step_of_memRead_pc hh rfl, decode_eq_bnz_iff.mpr hb]
    exact exec_bnz_eq n _

end Machine
end Sys2Proof
end

section
/-! SUPPORT. LOAD and STORE (43_load_store.md): the byte of each, the one read and the one write they are, and that no
other instruction reads or writes the memory in its execute phase (R134). -/

namespace Sys2Proof

theorem decode_eq_load_iff {b : Byte} {n : Addr} : decode b = .load n ↔ b.toNat = 0xC0 + n.toNat :=
  (decode_eq_iff_eq_encode (i := .load n) rfl nofun nofun).trans (eq_joinByte_iff (op := 6))

theorem decode_eq_store_iff {b : Byte} {n : Addr} : decode b = .store n ↔ b.toNat = 0xE0 + n.toNat :=
  (decode_eq_iff_eq_encode (i := .store n) rfl nofun nofun).trans (eq_joinByte_iff (op := 7))

namespace Machine

open Sys2Proof.Reference

theorem storedAddress_eq_none_iff {i : Instr} : storedAddress i = none ↔ ∀ n, i ≠ .store n := by
  cases i with
  | store n => exact ⟨nofun, fun h => absurd rfl (h n)⟩
  | _ => exact ⟨fun _ => nofun, fun _ => rfl⟩

/-- An instruction other than LOAD and STORE has the same effect over another memory, which it leaves as it is. -/
theorem effect_setMem {i : Instr} {s : State} (hstore : ∀ n, i ≠ .store n) (hload : ∀ n, i ≠ .load n) (m : Memory) :
    effect i { s with mem := m } = { effect i s with mem := m } := by
  cases i with
  | store n => exact absurd rfl (hstore n)
  | load n => exact absurd rfl (hload n)
  | clear | stop n | inc | add n | dec | jmp n | bnz n => rfl

/-- Settles O25: the effect keeps the memory where there is no stored address, and depends on it for LOAD and STORE
alone. -/
theorem dataAccessesAreLoadAndStore : Obligations.DataAccessesAreLoadAndStore := by
  intro i s t h
  obtain rfl := effect_of_exec h
  refine ⟨fun hstore => effect_mem_of_no_store (storedAddress_eq_none_iff.mpr hstore), fun hstore hload m => ?_⟩
  rw [exec_eq_effect, effect_setMem hstore hload]

/-- Settles O14: the byte that encodes `LOAD n`, and the one write of the accumulator. The fetch phase leaves the
memory, so a step loads the byte that stood at `n` before it. -/
theorem loadCopiesByte : Obligations.LoadCopiesByte := by
  refine ⟨fun b n => decode_eq_load_iff, fun n s => exec_load s n, fun n s hh hb => ?_⟩
  exact (step_of_decode hh (decode_eq_load_iff.mpr hb)).trans (exec_load (afterFetch s) n)

/-- Settles O15: the byte that encodes `STORE n`, and the laws of one memory write (O28); in a step it is the write of
the unchanged accumulator into the memory that the fetch phase left. -/
theorem storeCopiesAccumulator : Obligations.StoreCopiesAccumulator := by
  refine ⟨fun b n => decode_eq_store_iff, fun n s hwf => ?_, fun n s hwf hh hb => ?_⟩
  · exact ⟨_, exec_store s n, readGivesLatestWrite s n s.acc hwf⟩
  · obtain ⟨hstored, hothers, hframe, -⟩ := readGivesLatestWrite (afterFetch s) n s.acc hwf
    have hstep : step s = .next (memWrite (afterFetch s) n s.acc) :=
      (step_of_decode hh (decode_eq_store_iff.mpr hb)).trans (exec_store (afterFetch s) n)
    exact ⟨_, hstep, hstored, hothers, hframe⟩

end Machine
end Sys2Proof
end

section
/-! SUPPORT. STOP and the halted state (44_halt.md): the bytes of STOP, the one step that sets the halted latch, and the
run that it ends. -/

namespace Sys2Proof

/-- The byte of `STOP n` is the number `n`; the byte 0 is CLEAR's. -/
theorem decode_eq_stop_iff {b : Byte} {n : Addr} : decode b = .stop n ↔ n ≠ 0 ∧ b.toNat = n.toNat := by
  have hbyte (hn : n ≠ 0) : decode b = .stop n ↔ b.toNat = n.toNat := by
    rw [decode_eq_iff_eq_encode (i := .stop n) (bne_iff_ne.mpr hn) nofun nofun, ← Nat.zero_add n.toNat]
    exact eq_joinByte_iff (op := 0)
  refine ⟨fun h => ?_, fun ⟨hn, hb⟩ => (hbyte hn).mpr hb⟩
  have hwf : (Instr.stop n).wf = true := h ▸ decode_wf b
  have hn : n ≠ 0 := bne_iff_ne.mp hwf
  exact ⟨hn, (hbyte hn).mp h⟩

theorem exists_decode_eq_stop_iff {b : Byte} :
    (∃ n, decode b = .stop n) ↔ 0x01 ≤ b.toNat ∧ b.toNat ≤ 0x1F := by
  simp only [decode_eq_stop_iff, ne_eq, ← BitVec.toNat_inj, BitVec.ofNat_eq_ofNat, BitVec.toNat_zero]
  refine ⟨fun ⟨n, hn, hb⟩ => ?_, fun ⟨hlo, hhi⟩ => ⟨BitVec.ofNat 5 b.toNat, ?_⟩⟩
  · have := n.isLt
    omega
  · rw [BitVec.toNat_ofNat]
    omega

namespace Machine

open Sys2Proof.Reference

theorem isStop_iff {i : Instr} : isStop i = true ↔ ∃ n, i = .stop n := by
  cases i with
  | stop n => exact ⟨fun _ => ⟨n, rfl⟩, fun _ => rfl⟩
  | _ => exact ⟨nofun, nofun⟩

theorem step_of_decode_stop {s : State} (hh : s.halted = false) (hd : ∃ n, decode (memRead s s.pc) = .stop n) :
    step s = .next { afterFetch s with halted := true } := by
  obtain ⟨n, hn⟩ := hd
  exact (step_of_decode hh hn).trans (exec_stop (afterFetch s) n)

/-- Settles O16: the byte of STOP is its operand, any but 0, and its one effect is the halted latch. -/
theorem stopHaltsMachine : Obligations.StopHaltsMachine :=
  ⟨fun _ => exists_decode_eq_stop_iff, fun n s => exec_stop s n,
    fun _ hh hlo hhi => step_of_decode_stop hh (exists_decode_eq_stop_iff.mpr ⟨hlo, hhi⟩)⟩

/-- Of all instructions only STOP leaves a halted state. -/
theorem decode_eq_stop_of_step_halted {s t : State} (h : step s = .next t) (ht : t.halted = true) :
    ∃ n, decode (memRead s s.pc) = .stop n := by
  rw [← effect_of_step h, effect_halted, fetch_halted, (step_next h).1, Bool.false_or] at ht
  exact isStop_iff.mp ht

/-- The final state of a run (R141): the fetch phase's, with the halted latch set. -/
theorem eq_of_step_halted {s t : State} (h : step s = .next t) (ht : t.halted = true) :
    t = { s with ir := memRead s s.pc, pc := followingPc s, halted := true } := by
  have hstop := step_of_decode_stop (step_next h).1 (decode_eq_stop_of_step_halted h ht)
  obtain rfl := Host.Outcome.next.inj (h.symm.trans hstop)
  rw [followingPc_eq_nextPc]
  rfl

/-- A run that ends halted has a last step, from a running state to the final one. -/
theorem exists_last_step_of_halted {k : Nat} {s : State} (hh : s.halted = false) (hk : (runFor k s).halted = true) :
    ∃ j, j < k ∧ (runFor j s).halted = false ∧ step (runFor j s) = .next (runFor k s) := by
  induction k generalizing s with
  | zero => exact absurd hk (ne_true_of_eq_false hh)
  | succ k ih =>
    obtain ⟨t, ht⟩ := exists_step_of_running hh
    rw [runFor_succ_next ht] at hk ⊢
    cases hth : t.halted with
    | true => exact ⟨0, k.succ_pos, hh, by rw [runFor_of_halted hth, runFor_zero, ht]⟩
    | false =>
      obtain ⟨j, hj, hrun, hstep⟩ := ih hth hk
      exact ⟨j + 1, Nat.succ_lt_succ hj, by rwa [runFor_succ_next ht], by rwa [runFor_succ_next ht]⟩

/-- Settles O38: the step that sets the halted latch runs STOP, and a run that ends halted has that step as its
last. -/
theorem onlyStopEndsRun : Obligations.OnlyStopEndsRun := by
  refine ⟨fun s t h ht => ?_, fun k s hh hk => ?_⟩
  · obtain ⟨hlo, hhi⟩ := exists_decode_eq_stop_iff.mp (decode_eq_stop_of_step_halted h ht)
    exact ⟨hlo, hhi, eq_of_step_halted h ht⟩
  · obtain ⟨j, hj, hrun, hstep⟩ := exists_last_step_of_halted hh hk
    exact ⟨j, hj, hrun, eq_of_step_halted hstep hk⟩

/-- Settles O39: of the moves other than reset, a load is refused once the machine has started, and enabled steps are
not taken. -/
theorem haltedStateIsFinal : Obligations.HaltedStateIsFinal := by
  refine ⟨fun s hh => ⟨step_of_halted hh, runFor_of_halted hh⟩, fun m w w' hh hs hm hreset => ?_⟩
  cases m with
  | reset => exact absurd rfl hreset
  | load bytes =>
    obtain ⟨hnot, -⟩ := hostMove_load_ok hm
    exact absurd hs (ne_true_of_eq_false hnot)
  | enable k =>
    cases hm
    exact runFor_of_halted hh k

end Machine
end Sys2Proof
end

section
/-! SUPPORT. The host's run of the core (60_exceptions.md R150, R151), from the two things one of its steps can do. -/

namespace Sys2Proof
namespace Machine

theorem coreRun_zero (s : State) : Host.Core.run core 0 s = .next s := rfl

theorem coreRun_succ_of_next {s t : State} (h : step s = .next t) (k : Nat) :
    Host.Core.run core (k + 1) s = Host.Core.run core k t := by
  simp [Host.Core.run, core, h]

theorem coreRun_succ_of_refused {s : State} {r : Refusal} (h : step s = .refused r) (k : Nat) :
    Host.Core.run core (k + 1) s = .refused r := by
  simp [Host.Core.run, core, h]

/-- Settles O41, by induction on the number of steps: a running machine steps, and a halted one's step is refused with
`halted`, the one refusal that ends a run. -/
theorem everyRunIsSafe : Obligations.EveryRunIsSafe := by
  intro s k
  induction k generalizing s with
  | zero => exact .inl ⟨s, coreRun_zero s⟩
  | succ k ih =>
    cases hh : s.halted with
    | true => exact .inr (coreRun_succ_of_refused (step_of_halted hh) k)
    | false =>
      obtain ⟨t, ht⟩ := exists_step_of_running hh
      rw [coreRun_succ_of_next ht]
      exact ih t

end Machine
end Sys2Proof
end

section
/-! SUPPORT. Program load and the launch state (70_reset_and_hazards.md R174, R175): which loads are accepted, what
stands in memory after one, and a bounded run as steps from the launch state. -/

namespace Sys2Proof.Machine

theorem load_of_length_gt {bytes : List Byte} (h : bytes.length > 32) (s : State) :
    load bytes s = .error .programTooLarge :=
  if_pos h

theorem load_of_length_le {bytes : List Byte} (h : bytes.length ≤ 32) (s : State) :
    load bytes s = .ok { s with mem := writeBytes 0 bytes s.mem } :=
  if_neg (Nat.not_lt.mpr h)

/-- An accepted load puts byte `i` at address `i`. -/
theorem memRead_load_of_getElem? {bytes : List Byte} {s t : State} {a : Addr} {v : Byte}
    (hwf : Memory.wf s.mem = true) (hl : load bytes s = .ok t) (hv : bytes[a.toNat]? = some v) : memRead t a = v := by
  obtain ⟨hlen, rfl⟩ := load_ok hl
  have hread := Memory.read_writeBytes_at hwf (a := 0) (by omega) hv
  rwa [Nat.zero_add] at hread

/-- An accepted load leaves the addresses from the length upward. -/
theorem memRead_load_of_length_le {bytes : List Byte} {s t : State} {a : Addr} (hl : load bytes s = .ok t)
    (ha : bytes.length ≤ a.toNat) : memRead t a = memRead s a := by
  obtain ⟨-, rfl⟩ := load_ok hl
  exact Memory.read_writeBytes_past (by omega)

/-- Settles O45: the load accepted or refused by its length, and the memory it leaves, below the length and from it
upward. -/
theorem loadWritesLowAddresses : Obligations.LoadWritesLowAddresses := by
  refine ⟨fun _ s hlen => load_of_length_gt hlen s, fun bytes s hlen hwf => ?_,
    fun s => load_of_length_le (bytes := []) (Nat.zero_le 32) s, fun _ _ hs => if_pos hs⟩
  have hl := load_of_length_le hlen s
  exact ⟨_, hl, rfl, load_keeps_wf hwf hl, fun _ _ => memRead_load_of_getElem? hwf hl,
    fun _ => memRead_load_of_length_le hl⟩

/-- The launch state reads as the bytes followed by 0x00. -/
theorem memRead_launch {bytes : List Byte} {s : State} (h : launch bytes = .ok s) (a : Addr) :
    memRead s a = (bytes[a.toNat]?).getD 0x00 := by
  cases hv : bytes[a.toNat]? with
  | some v => exact memRead_load_of_getElem? resetMemoryIsCanonical h hv
  | none => exact memRead_load_of_length_le h (List.getElem?_eq_none_iff.mp hv)

theorem runProgram_of_launch_error {bytes : List Byte} {e : HostRefusal} (h : launch bytes = .error e) (fuel : Nat) :
    runProgram fuel bytes = .error e := by
  simp [runProgram, h]

/-- A run has the result `t` exactly if its steps from the launch state end in `t` and `t` is halted. -/
theorem runProgram_eq_some_iff {bytes : List Byte} {s : State} (h : launch bytes = .ok s) {fuel : Nat} {t : State} :
    runProgram fuel bytes = .ok (some t) ↔ runFor fuel s = t ∧ t.halted = true := by
  simp only [runProgram, h, Except.ok.injEq, Option.ite_none_right_eq_some, Option.some.injEq]
  constructor
  · rintro ⟨hh, rfl⟩; exact ⟨rfl, hh⟩
  · rintro ⟨rfl, hh⟩; exact ⟨hh, rfl⟩

/-- Settles O46: launching is a load into the reset state, and a run is steps from there. -/
theorem runFromLaunchState : Obligations.RunFromLaunchState := by
  refine ⟨fun bytes hlen => runProgram_of_launch_error (load_of_length_gt hlen State.reset), fun bytes hlen => ?_⟩
  have hs : launch bytes = .ok _ := load_of_length_le hlen State.reset
  exact ⟨_, hs, rfl, rfl, rfl, rfl, memRead_launch hs, fun _ _ => runProgram_eq_some_iff hs⟩

end Sys2Proof.Machine
end

section
/-! SUPPORT. The reset state with nothing loaded (70_reset_and_hazards.md R172): every byte is CLEAR, so nothing but
`pc` changes that the host can see. The instruction register is left out, whose reset value no rule gives (R18). -/

namespace Sys2Proof.Machine

theorem memRead_reset (a : Addr) : memRead State.reset a = 0x00 := rfl

/-- What the host sees of a machine with nothing loaded whose program counter is `pc`. -/
def unloadedAt (pc : Addr) : Observation := observe (setPc State.reset pc)

/-- With nothing loaded a step runs CLEAR, which changes nothing there: `pc` alone advances. -/
theorem step_of_unloadedAt {s : State} {pc : Addr} (h : observe s = unloadedAt pc) :
    ∃ t, step s = .next t ∧ observe t = unloadedAt (nextPc pc) := by
  have hs : step s = step (setPc State.reset pc) := by rw [eq_setIr_of_observe_eq h.symm, step_setIr]
  obtain ⟨-, -, -, hclear⟩ := clearResetsAccumulator
  exact ⟨_, hs.trans (hclear _ rfl (memRead_reset pc)), rfl⟩

/-- After `k` steps from reset the host sees `pc` at `k` modulo 32 and nothing else changed. -/
theorem observe_runFor_reset (k : Nat) : observe (runFor k State.reset) = unloadedAt (BitVec.ofNat 5 k) := by
  induction k with
  | zero => rfl
  | succ k ih =>
    obtain ⟨t, ht, hobs⟩ := step_of_unloadedAt ih
    rw [runFor_add, runFor_succ_next ht, runFor_zero, hobs, BitVec.ofNat_add]
    rfl

/-- Settles O44: the components of what the host sees after `k` steps. -/
theorem nothingLoadedRunsClears : Obligations.NothingLoadedRunsClears := by
  have hrun (k : Nat) := Observation.mk.inj (observe_runFor_reset k)
  refine ⟨fun k => ?_, fun k => ?_⟩
  · obtain ⟨hmem, hacc, hzf, hpc, -⟩ := hrun k
    have hbyte (a : Addr) : memRead (runFor k State.reset) a = 0x00 := congrArg (Memory.read · a.toNat) hmem
    exact ⟨by rw [hpc]; exact BitVec.toNat_ofNat k 5, hacc, hzf, hmem, decode_eq_clear_iff.mpr (hbyte _)⟩
  · obtain ⟨-, -, -, -, hhalted⟩ := hrun k
    exact hhalted

end Sys2Proof.Machine
end

section
/-! SUPPORT. The moves of the host (70_reset_and_hazards.md R170, R177): what an accepted one is, said once. -/

namespace Sys2Proof.Machine

/-- An accepted move is a reset, an enable of steps, or a load into a session that has not started. -/
theorem hostMove_cases {m : HostMove} {w w' : Session} (h : hostMove m w = .ok w') :
    (m = .reset ∧ w'.machine = State.reset) ∨ (∃ k, m = .enable k ∧ w'.machine = runFor k w.machine) ∨
      ∃ bytes, m = .load bytes ∧ w.started = false ∧ load bytes w.machine = .ok w'.machine := by
  cases m with
  | reset => cases h; exact .inl ⟨rfl, rfl⟩
  | enable k => cases h; exact .inr (.inl ⟨k, rfl, rfl⟩)
  | load bytes => exact .inr (.inr ⟨bytes, rfl, hostMove_load_ok h⟩)

/-- Of the accepted moves only reset leaves the halted state: a load does not write the halted latch. -/
theorem eq_reset_of_hostMove_leaves_halted {m : HostMove} {w w' : Session} (h : hostMove m w = .ok w')
    (hw : w.machine.halted = true) (hw' : w'.machine.halted = false) : m = .reset := by
  obtain ⟨hm, -⟩ | ⟨k, -, hk⟩ | ⟨bytes, -, -, hl⟩ := hostMove_cases h
  · exact hm
  · rw [hk, runFor_of_halted hw, hw] at hw'
    cases hw'
  · obtain ⟨-, ht⟩ := load_ok hl
    rw [ht, hw] at hw'
    cases hw'

/-- Settles O43: the reset values are the model's own, and so is the session that a reset leaves. -/
theorem resetState : Obligations.ResetState :=
  ⟨memRead_reset, rfl, rfl, rfl, rfl, fun _ => rfl, fun _ _ _ => eq_reset_of_hostMove_leaves_halted⟩

/-- Settles O47: an enable is accepted by definition, and an accepted load is one that fits. -/
theorem hostMoves : Obligations.HostMoves := by
  refine ⟨fun _ _ _ => hostMove_cases, fun k w => ⟨_, rfl, by simp⟩, fun bytes w hlen => ?_⟩
  cases hm : hostMove (.load bytes) w with
  | error e => exact ⟨e, rfl⟩
  | ok w' =>
    obtain ⟨-, hl⟩ := hostMove_load_ok hm
    obtain ⟨hfits, -⟩ := load_ok hl
    exact absurd hfits (Nat.not_le.mpr hlen)

end Sys2Proof.Machine
end
